-- ==== Sys2Proof/Word.lean ====
section
/-! DEFINITION. The word types of the machine (spec/00_scope.md section 6: doubleword, quadword, packed). -/

namespace Sys2Proof

/-- A byte of an instruction or of memory. -/
abbrev Byte := BitVec 8

/-- A doubleword, 32 bits. -/
abbrev Dword := BitVec 32

/-- A quadword, 64 bits: a result element, an address, a general register. -/
abbrev Qword := BitVec 64

/-- A vector register's contents as its quadword lanes: lane `j` is bits `[64j+63:64j]` of the spec's
`MAX_VL`-bit value (R6, R10). The eight lanes are there whatever `MAX_VL` is; see `State.readV`. -/
abbrev Vec := Vector Qword 8

/-- The number of a vector register, 0 to 31 (R11). -/
abbrev VecNum := BitVec 5

/-- The number of a general register, 0 to 15 (R15). -/
abbrev GprNum := BitVec 4

end Sys2Proof
end

