-- ==== Sys2Proof/Config.lean ====
section
/-! DEFINITION. The implementation parameters of spec/00_scope.md R4 and the one free value of the model. -/

namespace Sys2Proof

/-- `MAX_VL`, the width of a full vector register: 128, 256 or 512 bits (R4). -/
inductive MaxVL where
  | vl128
  | vl256
  | vl512
deriving DecidableEq, Repr

/-- `MAX_VL / 64`: how many quadword lanes a full vector register has. -/
def MaxVL.lanes : MaxVL → Nat
  | .vl128 => 2
  | .vl256 => 4
  | .vl512 => 8

/-- `MAX_VL` in bits. -/
def MaxVL.bits (m : MaxVL) : Nat := 64 * m.lanes

/-- `Feat`, the set of CPUID feature flags the processor reports (R4, R20). -/
structure Feat where
  sse41    : Bool
  avx      : Bool
  avx2     : Bool
  avx512f  : Bool
  avx512vl : Bool
deriving DecidableEq, Repr

/-- Where CPUID reports the flags (R20): `ecx1` is CPUID.01H:ECX, `ebx7` is CPUID.(EAX=07H,ECX=0):EBX. -/
def Feat.ofCpuid (ecx1 ebx7 : Dword) : Feat where
  sse41    := ecx1.getLsbD 19
  avx      := ecx1.getLsbD 28
  avx2     := ebx7.getLsbD 5
  avx512f  := ebx7.getLsbD 16
  avx512vl := ebx7.getLsbD 31

/-- What is fixed for one processor. -/
structure Processor where
  maxVL : MaxVL
  feat  : Feat
deriving DecidableEq, Repr

/-- R4: `MAX_VL` is at least the VL of every form the processor offers. -/
def Processor.admissible (p : Processor) : Bool :=
  (!p.feat.avx2 || decide (4 ≤ p.maxVL.lanes)) &&
  (!p.feat.avx512f || decide (8 ≤ p.maxVL.lanes))

/-- `Mode` (R3, R4), with the two modes that the exception classes name (R110, R111) and in which the
processor is after reset (R23). System-management mode is outside the spec and is not a value. -/
inductive Mode where
  | mode64
  | mode32
  | realAddress
  | virtual8086
deriving DecidableEq, Repr

/-- The modes of R3: 64-bit mode and 32-bit mode. -/
def Mode.inSpec : Mode → Bool
  | .mode64 => true
  | .mode32 => true
  | .realAddress => false
  | .virtual8086 => false

/-- The number of addresses of the linear address space (R21). -/
def Mode.top : Mode → Nat
  | .mode64 => 2 ^ 64
  | .mode32 => 2 ^ 32
  | .realAddress => 2 ^ 32
  | .virtual8086 => 2 ^ 32

/-- `NVEC`: how many vector registers there are to name. R11 gives it for Mode32 and Mode64; that it is 8 in
real-address and virtual-8086 mode, as in Mode32, is the model's choice (DESIGN CHOICE, notes/assumptions/34.md). -/
def Processor.nvec (p : Processor) (m : Mode) : Nat :=
  match m with
  | .mode64 => if p.feat.avx512f then 32 else 16
  | .mode32 => 8
  | .realAddress => 8
  | .virtual8086 => 8

/-- FREE VALUE (notes/assumptions/1.md; DESIGN CHOICE, safe). The spec does not say which override counts
when an instruction carries several different segment-override prefixes (R41, R61, D22). The argument is the
override bytes in order; the value modulo their number is the index of the one that counts. It has no body,
so nothing can be proved about it. -/
opaque Config.segmentPick : List Byte → Nat

end Sys2Proof
end

