-- ==== Sys2Proof/Syntax.lean ====
section
/-! DEFINITION. The six forms of spec/opcode_table.json as syntax (spec/30_encoding.md sections 1 to 4). A term
holds the operands with their numbers assembled (R50) and, so that decoding drops no bit, also the bits of the
encoding that have no effect: the ignored W of REX and VEX (R52) and the extension bits an operand does not use. -/

namespace Sys2Proof

/-- The legacy prefixes (R41). -/
inductive LegacyPrefix where
  | lock | repne | rep | opSize | addrSize
  | cs | ss | ds | es | fs | gs
deriving DecidableEq, Repr

/-- The segments an address can use (R59). -/
inductive Seg where
  | cs | ss | ds | es | fs | gs
deriving DecidableEq, Repr

/-- The displacement after ModRM and SIB (R56). -/
inductive Disp where
  | none
  | d8 (b : Byte)
  | d32 (d : Dword)
deriving DecidableEq, Repr

/-- A memory operand (R57, R60). `x` and `b` are extension bits that the form of address ignores. -/
inductive Addr where
  /-- `r/m` names the base register. -/
  | base (x : Bool) (b : GprNum) (disp : Disp)
  /-- A SIB byte with a base; `index` is `none` where `Xx ++ SIB.index = 0100`. -/
  | sib (scale : BitVec 2) (index : Option GprNum) (b : GprNum) (disp : Disp)
  /-- A SIB byte with `mod = 00` and `SIB.base = 101`: no base register, a 32-bit displacement. -/
  | sibNoBase (b : Bool) (scale : BitVec 2) (index : Option GprNum) (d : Dword)
  /-- `mod = 00`, `r/m = 101`: relative to the next instruction in Mode64, absolute in Mode32 (R58). -/
  | disp32 (x b : Bool) (d : Dword)
  /-- A memory operand under 16-bit addressing, whose table the spec does not give (R60). -/
  | addr16 (mod : BitVec 2) (rm : BitVec 3)
deriving DecidableEq, Repr

/-- The operand `ModRM:r/m`: a register or a memory operand (R45). The number of a register is
`B ++ r/m`; the bit `x` is the fifth bit of an EVEX register number and ignored by the other forms (R50). -/
inductive RegMem where
  | reg (x : Bool) (n : GprNum)
  | mem (a : Addr)
deriving DecidableEq, Repr

/-- The second source of an EVEX form: `ModRM:r/m` with `EVEX.b = 0`, or a memory element broadcast
to every lane (`EVEX.b = 1`, R55). -/
inductive EvexSrc where
  | rm (src : RegMem)
  | bcst (a : Addr)
deriving DecidableEq, Repr

/-- The writemask of an EVEX form: none, or `K[k]` with merging or zeroing (R53, R54). -/
inductive Masking where
  | none
  | merge (k : BitVec 3)
  | zero (k : BitVec 3)
deriving DecidableEq, Repr

/-- The six encoded forms (R1). -/
inductive Form where
  | sse
  | vex128
  | vex256
  | evex128
  | evex256
  | evex512
deriving DecidableEq, Repr

/-- `KL`, the number of 64-bit result elements, which is VL/64 (R5). -/
def Form.kl : Form → Nat
  | .sse => 2
  | .vex128 => 2
  | .vex256 => 4
  | .evex128 => 2
  | .evex256 => 4
  | .evex512 => 8

/-- `VL`, the vector length in bits (R5, R51). -/
def Form.vl (f : Form) : Nat := 64 * f.kl

/-- The instructions: one constructor per row of the opcode table. `pre` is the legacy prefixes in order,
`rex` is the W bit of the REX prefix if there is one, `w` is VEX.W, `d` the destination, `a` the first source. -/
inductive Instr where
  /-- F-SSE, `66 0F 38 28 /r` (R73); the destination is also the first source. -/
  | pmuldq (pre : List LegacyPrefix) (rex : Option Bool) (d : GprNum) (src : RegMem)
  /-- F-VEX128, `VEX.NDS.128.66.0F38.WIG 28 /r` (R80). -/
  | vpmuldqVex128 (pre : List LegacyPrefix) (w : Bool) (d a : GprNum) (src : RegMem)
  /-- F-VEX256, `VEX.NDS.256.66.0F38.WIG 28 /r` (R81). -/
  | vpmuldqVex256 (pre : List LegacyPrefix) (w : Bool) (d a : GprNum) (src : RegMem)
  /-- F-EVEX128, `EVEX.NDS.128.66.0F38.W1 28 /r` (R95). -/
  | vpmuldqEvex128 (pre : List LegacyPrefix) (d a : VecNum) (m : Masking) (src : EvexSrc)
  /-- F-EVEX256, `EVEX.NDS.256.66.0F38.W1 28 /r` (R96). -/
  | vpmuldqEvex256 (pre : List LegacyPrefix) (d a : VecNum) (m : Masking) (src : EvexSrc)
  /-- F-EVEX512, `EVEX.NDS.512.66.0F38.W1 28 /r` (R97). -/
  | vpmuldqEvex512 (pre : List LegacyPrefix) (d a : VecNum) (m : Masking) (src : EvexSrc)
deriving DecidableEq, Repr

/-- The form of an instruction. -/
def Instr.form : Instr → Form
  | .pmuldq _ _ _ _ => .sse
  | .vpmuldqVex128 _ _ _ _ _ => .vex128
  | .vpmuldqVex256 _ _ _ _ _ => .vex256
  | .vpmuldqEvex128 _ _ _ _ _ => .evex128
  | .vpmuldqEvex256 _ _ _ _ _ => .evex256
  | .vpmuldqEvex512 _ _ _ _ _ => .evex512

/-- The legacy prefixes of an instruction. -/
def Instr.prefixes : Instr → List LegacyPrefix
  | .pmuldq pre _ _ _ => pre
  | .vpmuldqVex128 pre _ _ _ _ => pre
  | .vpmuldqVex256 pre _ _ _ _ => pre
  | .vpmuldqEvex128 pre _ _ _ _ => pre
  | .vpmuldqEvex256 pre _ _ _ _ => pre
  | .vpmuldqEvex512 pre _ _ _ _ => pre

/-- The number of the destination register (operand 1, R44, R50). -/
def Instr.dest : Instr → VecNum
  | .pmuldq _ _ d _ => d.setWidth 5
  | .vpmuldqVex128 _ _ d _ _ => d.setWidth 5
  | .vpmuldqVex256 _ _ d _ _ => d.setWidth 5
  | .vpmuldqEvex128 _ d _ _ _ => d
  | .vpmuldqEvex256 _ d _ _ _ => d
  | .vpmuldqEvex512 _ d _ _ _ => d

end Sys2Proof
end

