-- ==== Sys2Proof/Machine/State.lean ====
section
/-! DEFINITION. The state of the machine (spec/10_state.md), the reasons a step can stop, and the state after
reset (R23). State is plain data; INVENTORY.md lists each field with its rule and its reset value. -/

namespace Sys2Proof.Machine

/-- Why the run ends in an exception (R115, R119). `ip` is the address of the faulting instruction, which is also
the instruction pointer of the unchanged state (R118). Delivery through the descriptor table is outside the
spec (D14), so stopping here is safe. -/
inductive Fault where
  /-- #UD, vector 6: raised by the availability check (R112) and by an invalid encoding (R64, R65). Safe. -/
  | ud (ip : Qword)
  /-- #NM, vector 7: raised by the availability check when CR0.TS = 1 (R113). Safe. -/
  | nm (ip : Qword)
  /-- #SS(0), vector 12: an illegal operand address in the stack segment (R34). Safe. -/
  | ss0 (ip : Qword)
  /-- #GP(0), vector 13: an illegal operand or code address, a misaligned F-SSE operand, an instruction longer
  than 15 bytes (R28, R34, R41). Safe. -/
  | gp0 (ip : Qword)
  /-- #PF, vector 14: an operand or code byte that cannot be read (R34). Safe. -/
  | pf (ip : Qword)
deriving DecidableEq, Repr

/-- Why a step has no meaning: each is a refusal that the spec itself decides, so it is safe. -/
inductive Refusal where
  /-- Raised by an arm of exec that has no meaning yet. No arm of this model does. -/
  | notModelled (mnemonic : String)
  /-- Raised by the step: the bytes are not one of the six forms (R61 step 6, D1). Safe. -/
  | notThisInstruction
  /-- Raised by the step: `0F 38 28` with `66` and also `F2` or `F3` (R64). Safe. -/
  | repeatPrefix
  /-- Raised by the step: unusual extension bits outside 64-bit mode (R48, D21). Safe. -/
  | extensionBits
  /-- Raised by a form with a memory operand under 16-bit addressing (R60, D16). Safe. -/
  | addressing16
  /-- Raised by F-SSE, available, in real-address or virtual-8086 mode (D20). Safe. -/
  | modeOutsideSpec
  /-- Raised by a read of a device region, for an operand or for code (R32, D6). Safe. -/
  | deviceMemory
  /-- Raised where the instruction pointer would pass the top of the address space (R16, D12). Safe. -/
  | pcWrap
deriving DecidableEq, Repr

/-- Bytes by linear address. Canonical form: `Memory.wf`. -/
abbrev Memory := List Host.Cell

/-- What kind of memory a readable range is (R32). -/
inductive RegionKind where
  | ordinary
  | device
deriving DecidableEq, Repr

/-- A range of linear addresses that can be read (R34, R132, D16). `user`: readable at privilege level 3 (R123). -/
structure Region where
  base : Nat
  size : Nat
  kind : RegionKind
  user : Bool
deriving DecidableEq, Repr

/-- The state (spec/10_state.md; the parameters of 00_scope.md R4 are data here, so a statement about every
state is a statement about every processor, mode and launch). -/
structure State where
  /-- MAX_VL and Feat (R4, R20). -/
  cpu     : Processor
  /-- Mode (R3, R4, R23). -/
  mode    : Mode
  /-- Privilege level (R123). -/
  cpl     : BitVec 2
  /-- The vector registers `V[n]` (R10, R11). -/
  v       : Vector Vec 32
  /-- The opmask registers `K[n]` (R14). -/
  k       : Vector Qword 8
  /-- The general registers (R15). -/
  gpr     : Vector Qword 16
  /-- RIP or EIP (R16). -/
  pc      : Qword
  /-- RFLAGS or EFLAGS (R17). -/
  rflags  : Qword
  /-- MXCSR (R18). -/
  mxcsr   : Dword
  /-- CR0 (R19). -/
  cr0     : Qword
  /-- CR4 (R19). -/
  cr4     : Qword
  /-- XCR0 (R19). -/
  xcr0    : Qword
  /-- The code-segment base (R23). -/
  csBase  : Qword
  /-- FSBase (R59, R132). -/
  fsBase  : Qword
  /-- GSBase (R59, R132). -/
  gsBase  : Qword
  /-- The readable ranges: the parameter `Access` (R34). -/
  regions : List Region
  /-- The bytes of memory (R21, R25). -/
  mem     : Memory
deriving DecidableEq, Repr

/-- The machine right after reset (R23). The spec states the XMM views, the instruction pointer with the
code-segment base, the flags, MXCSR, CR0, CR4, XCR0 and the mode; every other value here is the model's
(notes/assumptions/2.md, 3.md and 5.md). -/
def State.reset : State where
  cpu     := ⟨.vl512, ⟨true, true, true, true, true⟩⟩
  mode    := .realAddress
  cpl     := 0#2
  v       := Vector.replicate 32 (Vector.replicate 8 0#64)
  k       := Vector.replicate 8 0#64
  gpr     := Vector.replicate 16 0#64
  pc      := 0xFFF0#64
  rflags  := 0x2#64
  mxcsr   := 0x1F80#32
  cr0     := 0x60000010#64
  cr4     := 0x0#64
  xcr0    := 0x1#64
  csBase  := 0xFFFF0000#64
  fsBase  := 0x0#64
  gsBase  := 0x0#64
  regions := []
  mem     := []

end Sys2Proof.Machine
end

