-- ==== Sys2Proof/Machine/Flags.lean ====
section
/-! DEFINITION. The flag and enabling bits the forms depend on (spec/10_state.md R19) and the availability check
(spec/60_exceptions.md R110 to R113). No form computes, reads or writes a flag of RFLAGS (R17) or a bit of
MXCSR (R18), so there is no flag computation here. -/

namespace Sys2Proof.Machine

/-- The exceptions these forms can raise (R110, R111, R115). -/
inductive ExcKind where
  | ud
  | nm
  | ss0
  | gp0
  | pf
deriving DecidableEq, Repr

/-- CR0.EM, bit 2 (R19). -/
def cr0Em (s : State) : Bool := s.cr0.getLsbD 2

/-- CR0.TS, bit 3 (R19): the spec's `TaskSwitched`. -/
def taskSwitched (s : State) : Bool := s.cr0.getLsbD 3

/-- CR4.OSFXSR, bit 9 (R19). -/
def cr4Osfxsr (s : State) : Bool := s.cr4.getLsbD 9

/-- CR4.OSXSAVE, bit 18 (R19). -/
def cr4Osxsave (s : State) : Bool := s.cr4.getLsbD 18

/-- XCR0[2:1] = 11b, the SSE and AVX state (R19). -/
def xcr0Avx (s : State) : Bool := s.xcr0.extractLsb' 1 2 == 3#2

/-- XCR0[7:5] = 111b, the opmask, ZMM_Hi256 and Hi16_ZMM state (R19). -/
def xcr0Avx512 (s : State) : Bool := s.xcr0.extractLsb' 5 3 == 7#3

/-- `OsEnabled(form)`: every #UD row of R19 for the form is satisfied. -/
def osEnabled (f : Form) (s : State) : Bool :=
  match f with
  | .sse => !cr0Em s && cr4Osfxsr s
  | .vex128 => cr4Osxsave s && xcr0Avx s
  | .vex256 => cr4Osxsave s && xcr0Avx s
  | .evex128 => cr4Osxsave s && xcr0Avx s && xcr0Avx512 s
  | .evex256 => cr4Osxsave s && xcr0Avx s && xcr0Avx512 s
  | .evex512 => cr4Osxsave s && xcr0Avx s && xcr0Avx512 s

/-- The form's feature flag or flags are in `Feat` (R1, R2). -/
def featurePresent (f : Form) (p : Feat) : Bool :=
  match f with
  | .sse => p.sse41
  | .vex128 => p.avx
  | .vex256 => p.avx2
  | .evex128 => p.avx512vl && p.avx512f
  | .evex256 => p.avx512vl && p.avx512f
  | .evex512 => p.avx512f

/-- The forms that raise #UD in real-address and virtual-8086 mode (R110, R111): all but F-SSE. -/
def udOutsideProtected (f : Form) : Bool := f != .sse

/-- `check_available(form)` (R112, R113): the exception it raises, #UD before #NM (R117). For F-SSE in
real-address and virtual-8086 mode it comes before the refusal of D20 (the model's choice, notes/assumptions/4.md). -/
def checkAvailable (f : Form) (s : State) : Option ExcKind :=
  if !featurePresent f s.cpu.feat then some .ud
  else if udOutsideProtected f && !s.mode.inSpec then some .ud
  else if !osEnabled f s then some .ud
  else if taskSwitched s then some .nm
  else none

end Sys2Proof.Machine
end

