-- ==== Sys2Proof/Machine/Ops.lean ====
section
/-! DEFINITION. The named operations over registers and memory (spec/00_scope.md R8, spec/20_memory.md), raising an
exception (spec/60_exceptions.md R118, R119) and completing an instruction (spec/10_state.md R16). -/

namespace Sys2Proof.Machine

/-! ### Memory as data -/

/-- What an address that is not listed reads as (DESIGN CHOICE, notes/assumptions/5.md). -/
def unlistedByte : Byte := 0#8

/-- The byte at an address. -/
def readByte : Memory → Nat → Byte
  | [], _ => unlistedByte
  | (a', b) :: t, a => if a' = a then b else readByte t a

/-- The memory with one byte changed; the canonical form is kept. No form of the spec writes memory (R33): this
is the launch's operation (R132). -/
def writeByte : Memory → Nat → Byte → Memory
  | [], a, b => if b = unlistedByte then [] else [(a, b)]
  | (a', b') :: t, a, b =>
    if a < a' then (if b = unlistedByte then (a', b') :: t else (a, b) :: (a', b') :: t)
    else if a = a' then (if b = unlistedByte then t else (a, b) :: t)
    else (a', b') :: writeByte t a b

/-- The memory with the given bytes from an address on. -/
def writeBytes : Memory → Nat → List Byte → Memory
  | m, _, [] => m
  | m, a, b :: bs => writeBytes (writeByte m a b) (a + 1) bs

/-- The canonical form: no listed byte is `unlistedByte`, every listed address is at least `lo`, and the
addresses rise strictly. -/
def Memory.wfFrom : Nat → Memory → Bool
  | _, [] => true
  | lo, (a, b) :: t => decide (lo ≤ a) && b != unlistedByte && Memory.wfFrom (a + 1) t

/-- The canonical form of memory. -/
def Memory.wf (m : Memory) : Bool := Memory.wfFrom 0 m

/-- The eight bytes at `a` as a quadword, the byte at `a + i` in bits `[8i+7:8i]` (R26). -/
def readQword (m : Memory) (a : Nat) : Qword :=
  readByte m (a + 7) ++ readByte m (a + 6) ++ readByte m (a + 5) ++ readByte m (a + 4) ++
    readByte m (a + 3) ++ readByte m (a + 2) ++ readByte m (a + 1) ++ readByte m a

/-- `MemRead(a, 8 * kl)` as lanes: lane `j` is the quadword at `a + 8j` (R25, R26). Lanes from `kl` on are 0. -/
def readVec (m : Memory) (a kl : Nat) : Vec :=
  Vector.ofFn fun j => if j.val < kl then readQword m (a + 8 * j.val) else 0#64

/-- The quadword `q` in each of the first `kl` lanes (R91, broadcast). -/
def broadcast (q : Qword) (kl : Nat) : Vec :=
  Vector.ofFn fun j => if j.val < kl then q else 0#64

/-! ### Registers -/

/-- The first `n` lanes of a vector, the others zero: `zext(x[64n-1:0])`. -/
def lowLanes (n : Nat) (x : Vec) : Vec := Vector.ofFn fun j => if j.val < n then x[j.val] else 0#64

/-- `V[n]` (R8, R10): the lanes below `MAX_VL`; there is nothing above it. -/
def readV (s : State) (n : VecNum) : Vec := lowLanes s.cpu.maxVL.lanes s.v[n.toNat]

/-- `V[n] <- x`, all `MAX_VL` bits (R8, R10). -/
def writeV (s : State) (n : VecNum) (x : Vec) : State :=
  { s with v := s.v.set n.toNat (lowLanes s.cpu.maxVL.lanes x) }

/-- `V[n]` as a number of 512 bits, bit `64j + i` being bit `i` of lane `j` (R6, R10). -/
def vecBits (x : Vec) : BitVec 512 :=
  x[7] ++ x[6] ++ x[5] ++ x[4] ++ x[3] ++ x[2] ++ x[1] ++ x[0]

/-- `K[n]` (R8, R14). -/
def readK (s : State) (n : BitVec 3) : Qword := s.k[n.toNat]

/-- The low 32 bits, zero-extended. -/
def low32 (x : Qword) : Qword := (x.setWidth 32).setWidth 64

/-- `x[n]` (R8, R15): 64 bits in Mode64, the low 32 otherwise. -/
def readX (s : State) (n : GprNum) : Qword :=
  match s.mode with
  | .mode64 => s.gpr[n.toNat]
  | .mode32 => low32 s.gpr[n.toNat]
  | .realAddress => low32 s.gpr[n.toNat]
  | .virtual8086 => low32 s.gpr[n.toNat]

/-- The instruction pointer (R16): RIP in Mode64, EIP otherwise. -/
def ip (s : State) : Qword :=
  match s.mode with
  | .mode64 => s.pc
  | .mode32 => low32 s.pc
  | .realAddress => low32 s.pc
  | .virtual8086 => low32 s.pc

/-! ### Exceptions -/

/-- TAKING AN EXCEPTION (R118, R119): nothing is changed and the run ends in the fault, with the address of the
instruction. The spec describes no entry and no return from one (R120). -/
def raiseException (e : ExcKind) (s : State) : Host.Outcome State Fault Refusal :=
  match e with
  | .ud => .fault (.ud (ip s))
  | .nm => .fault (.nm (ip s))
  | .ss0 => .fault (.ss0 (ip s))
  | .gp0 => .fault (.gp0 (ip s))
  | .pf => .fault (.pf (ip s))

/-- The vector number of an exception (R115). -/
def Fault.vector : Fault → Nat
  | .ud _ => 6
  | .nm _ => 7
  | .ss0 _ => 12
  | .gp0 _ => 13
  | .pf _ => 14

/-- The error code of an exception that has one whose value the spec gives: 0 for #SS and #GP (R114). #UD and #NM
have none (R112, R113); that of #PF is outside the spec (R114). -/
def Fault.errorCode : Fault → Option Nat
  | .ud _ => none
  | .nm _ => none
  | .ss0 _ => some 0
  | .gp0 _ => some 0
  | .pf _ => none

/-- The address of the instruction that raised the exception (R115, R118). -/
def Fault.ip : Fault → Qword
  | .ud a => a
  | .nm a => a
  | .ss0 a => a
  | .gp0 a => a
  | .pf a => a

/-! ### Access to memory -/

/-- What reading an operand answers: its value, an exception to raise, or a refusal. -/
inductive Read (α : Type) where
  | value (x : α)
  | raise (e : ExcKind)
  | refuse (r : Refusal)
deriving DecidableEq, Repr

/-- The value of a read, passed through a function; an exception or a refusal stays. -/
def Read.map {α β : Type} (g : α → β) : Read α → Read β
  | .value x => .value (g x)
  | .raise e => .raise e
  | .refuse r => .refuse r

/-- What the page and protection machinery answers for one byte (R34, R123, D16). -/
inductive PageAnswer where
  | ordinary
  | device
  | notReadable
deriving DecidableEq, Repr

/-- An address lies in a region. -/
def Region.contains (r : Region) (a : Nat) : Bool := decide (r.base ≤ a) && decide (a < r.base + r.size)

/-- The answer for the byte at `a`: that of the first region it lies in; outside every region, and in a region
that privilege level 3 may not read, it is not readable (D16; DESIGN CHOICE, notes/assumptions/6.md). -/
def pageAnswer (s : State) (a : Nat) : PageAnswer :=
  match s.regions.find? (fun r => r.contains a) with
  | none => .notReadable
  | some r =>
    if s.cpl = 3#2 ∧ r.user = false then .notReadable
    else
      match r.kind with
      | .ordinary => .ordinary
      | .device => .device

/-- An address is one of the linear address space, and canonical in Mode64: bits [63:47] all equal (R34). In Mode32 the
segment limit, the full address space, is tested on the linear address (DESIGN CHOICE, notes/assumptions/35.md). -/
def legalAddr (m : Mode) (a : Nat) : Bool :=
  match m with
  | .mode64 => decide (a < 2 ^ 47) || (decide (2 ^ 64 - 2 ^ 47 ≤ a) && decide (a < 2 ^ 64))
  | .mode32 => decide (a < 2 ^ 32)
  | .realAddress => decide (a < 2 ^ 32)
  | .virtual8086 => decide (a < 2 ^ 32)

/-- A property holds of each of the `n` addresses from `a` on. -/
def allFrom (p : Nat → Bool) : Nat → Nat → Bool
  | _, 0 => true
  | a, n + 1 => p a && allFrom p (a + 1) n

/-- `Access` for the `n` bytes at `a` (R34), in the order of R117: illegal address (#SS(0) for the stack segment, else
#GP(0)), then #PF; a device byte is refused (R32). -/
def access (s : State) (stack : Bool) (a n : Nat) : Read Unit :=
  if !allFrom (legalAddr s.mode) a n then .raise (if stack then .ss0 else .gp0)
  else if !allFrom (fun b => pageAnswer s b != .notReadable) a n then .raise .pf
  else if !allFrom (fun b => pageAnswer s b != .device) a n then .refuse .deviceMemory
  else .value ()

/-- The checks of `MemRead(a, n)` (R25): the alignment check where `aligned` (R28), then `Access`. -/
def checkRead (s : State) (aligned stack : Bool) (a n : Nat) : Read Unit :=
  if aligned && decide (a % 16 ≠ 0) then .raise .gp0
  else access s stack a n

/-! ### Completing an instruction -/

/-- `pc <- pc + len` on completion (R16); passing the top of the address space is refused (D12). That a next address which
is the top itself is refused too, and after every exception, is the model's reading (DEDUCED, notes/assumptions/9.md). -/
def advance (len : Nat) (s : State) : Host.Outcome State Fault Refusal :=
  if (ip s).toNat + len < s.mode.top then .next { s with pc := BitVec.ofNat 64 ((ip s).toNat + len) }
  else .refused .pcWrap

/-- The shape every form has (R73, R80, R81, R90): check availability, then read the second source, then write the
destination, then advance. The refusal of 16-bit addressing (R60) is the second source's, so it comes after #UD and #NM
(DESIGN CHOICE, notes/assumptions/37.md). -/
def runForm (f : Form) (len : Nat) (src : Read Vec) (write : Vec → State) (s : State) :
    Host.Outcome State Fault Refusal :=
  match checkAvailable f s with
  | some e => raiseException e s
  | none =>
    if s.mode.inSpec then
      match src with
      | .raise e => raiseException e s
      | .refuse r => .refused r
      | .value y => advance len (write y)
    else .refused .modeOutsideSpec

end Sys2Proof.Machine
end

