-- ==== Sys2Proof/Machine/Lanes.lean ====
section
/-! DEFINITION. The lane arithmetic shared by all forms (spec/40_pmuldq_sse.md R70 to R72) and writemasking
(spec/42_vpmuldq_evex.md R90, R92). -/

namespace Sys2Proof.Machine

/-- `LaneMul` (R70): both doublewords are sign-extended to 64 bits and multiplied. -/
def laneMul (a b : Dword) : Qword := a.signExtend 64 * b.signExtend 64

/-- The even-numbered doubleword of a lane, its bits [31:0] (R72). -/
def evenDword (q : Qword) : Dword := q.setWidth 32

/-- `PackedMul(64 * kl, x, y)` (R72). Lanes from `kl` on are 0. -/
def packedMul (kl : Nat) (x y : Vec) : Vec :=
  Vector.ofFn fun j => if j.val < kl then laneMul (evenDword x[j.val]) (evenDword y[j.val]) else 0#64

/-- `x` with its first `kl` lanes replaced by those of `new` (R74: the others stay). -/
def replaceLow (kl : Nat) (x new : Vec) : Vec :=
  Vector.ofFn fun j => if j.val < kl then new[j.val] else x[j.val]

/-- Element `j` is computed: no writemask, or mask bit `j` is 1 (R92). -/
def elementActive (s : State) (mk : Masking) (j : Nat) : Bool :=
  match mk with
  | .none => true
  | .merge k => (readK s k).getLsbD j
  | .zero k => (readK s k).getLsbD j

/-- What an element that is not computed becomes (R92, R98, R99). -/
def maskedOff (mk : Masking) (old : Qword) : Qword :=
  match mk with
  | .none => old
  | .merge _ => old
  | .zero _ => 0#64

/-- The loop of `EvexMul` (R90) with the bits above VL zeroed (R94): the new value of the destination register
from its old value and the two sources. -/
def evexResult (s : State) (kl : Nat) (mk : Masking) (old x y : Vec) : Vec :=
  Vector.ofFn fun j =>
    if j.val < kl then
      if elementActive s mk j.val then laneMul (evenDword x[j.val]) (evenDword y[j.val])
      else maskedOff mk old[j.val]
    else 0#64

end Sys2Proof.Machine
end

