-- ==== Sys2Proof/Decode.lean ====
section
/-! DEFINITION. Decoder and encoder (spec/30_encoding.md). The decoder is total on byte strings: it answers an
instruction and the bytes after it, an invalid encoding (#UD), a refusal by name, or that it needs more bytes. -/

namespace Sys2Proof

/-! ### Legacy prefixes (R41) -/

/-- The byte of a legacy prefix. -/
def LegacyPrefix.byte : LegacyPrefix → Byte
  | .lock => 0xF0#8
  | .repne => 0xF2#8
  | .rep => 0xF3#8
  | .opSize => 0x66#8
  | .addrSize => 0x67#8
  | .cs => 0x2E#8
  | .ss => 0x36#8
  | .ds => 0x3E#8
  | .es => 0x26#8
  | .fs => 0x64#8
  | .gs => 0x65#8

/-- The legacy prefix a byte is, if it is one of the eleven. -/
def LegacyPrefix.ofByte (b : Byte) : Option LegacyPrefix :=
  if b = 0xF0#8 then some .lock
  else if b = 0xF2#8 then some .repne
  else if b = 0xF3#8 then some .rep
  else if b = 0x66#8 then some .opSize
  else if b = 0x67#8 then some .addrSize
  else if b = 0x2E#8 then some .cs
  else if b = 0x36#8 then some .ss
  else if b = 0x3E#8 then some .ds
  else if b = 0x26#8 then some .es
  else if b = 0x64#8 then some .fs
  else if b = 0x65#8 then some .gs
  else none

/-- The segment a prefix selects, for the six overrides. -/
def LegacyPrefix.seg : LegacyPrefix → Option Seg
  | .cs => some .cs
  | .ss => some .ss
  | .ds => some .ds
  | .es => some .es
  | .fs => some .fs
  | .gs => some .gs
  | .lock => none
  | .repne => none
  | .rep => none
  | .opSize => none
  | .addrSize => none

/-- Step 1 of R61: the legacy prefixes at the head of the bytes, and the bytes after them. -/
def splitPrefixes : List Byte → List LegacyPrefix × List Byte
  | [] => ([], [])
  | b :: bs =>
    match LegacyPrefix.ofByte b with
    | some p => (p :: (splitPrefixes bs).1, (splitPrefixes bs).2)
    | none => ([], b :: bs)

/-- Address size of a memory operand. -/
inductive AddrSize where
  | a16
  | a32
  | a64
deriving DecidableEq, Repr

/-- The address size from the mode and the `67` prefix (R57, R60). In real-address and virtual-8086 mode the
default is 16 bits (PRESUMED, notes/assumptions/4.md). -/
def addrSizeOf (m : Mode) (pre : List LegacyPrefix) : AddrSize :=
  match m with
  | .mode64 => if pre.contains .addrSize then .a32 else .a64
  | .mode32 => if pre.contains .addrSize then .a16 else .a32
  | .realAddress => if pre.contains .addrSize then .a32 else .a16
  | .virtual8086 => if pre.contains .addrSize then .a32 else .a16

/-! ### The bytes of an instruction, field by field -/

/-- Bit `i` of a field, a byte or a register number (R6). -/
def bitAt {w : Nat} (x : BitVec w) (i : Nat) : Bool := x.getLsbD i

/-- ModRM (R45). -/
structure ModRM where
  mod : BitVec 2
  reg : BitVec 3
  rm  : BitVec 3
deriving DecidableEq, Repr

def ModRM.ofByte (c : Byte) : ModRM where
  mod := c.extractLsb' 6 2
  reg := c.extractLsb' 3 3
  rm  := c.extractLsb' 0 3

def ModRM.toByte (f : ModRM) : Byte := f.mod ++ f.reg ++ f.rm

/-- SIB (R46). -/
structure Sib where
  scale : BitVec 2
  index : BitVec 3
  base  : BitVec 3
deriving DecidableEq, Repr

def Sib.ofByte (c : Byte) : Sib where
  scale := c.extractLsb' 6 2
  index := c.extractLsb' 3 3
  base  := c.extractLsb' 0 3

def Sib.toByte (f : Sib) : Byte := f.scale ++ f.index ++ f.base

/-- The REX prefix, `0100 W R X B` (R43). -/
structure Rex where
  w : Bool
  r : Bool
  x : Bool
  b : Bool
deriving DecidableEq, Repr

/-- Values `40` to `4F` are REX. -/
def Rex.isRex (c : Byte) : Bool := c.extractLsb' 4 4 == 4#4

def Rex.ofByte (c : Byte) : Rex where
  w := bitAt c 3
  r := bitAt c 2
  x := bitAt c 1
  b := bitAt c 0

def Rex.toByte (f : Rex) : Byte :=
  4#4 ++ BitVec.ofBool f.w ++ BitVec.ofBool f.r ++ BitVec.ofBool f.x ++ BitVec.ofBool f.b

/-- Byte P0 of the VEX prefix (R47). `r`, `x`, `b` are the true values: the byte holds them inverted. -/
structure VexP0 where
  r   : Bool
  x   : Bool
  b   : Bool
  map : BitVec 5
deriving DecidableEq, Repr

def VexP0.ofByte (c : Byte) : VexP0 where
  r   := !bitAt c 7
  x   := !bitAt c 6
  b   := !bitAt c 5
  map := c.extractLsb' 0 5

def VexP0.toByte (f : VexP0) : Byte :=
  BitVec.ofBool (!f.r) ++ BitVec.ofBool (!f.x) ++ BitVec.ofBool (!f.b) ++ f.map

/-- Byte P1 of the VEX prefix (R47); `vvvv` is the true value. -/
structure VexP1 where
  w    : Bool
  vvvv : BitVec 4
  l    : Bool
  pp   : BitVec 2
deriving DecidableEq, Repr

def VexP1.ofByte (c : Byte) : VexP1 where
  w    := bitAt c 7
  vvvv := ~~~(c.extractLsb' 3 4)
  l    := bitAt c 2
  pp   := c.extractLsb' 0 2

def VexP1.toByte (f : VexP1) : Byte :=
  BitVec.ofBool f.w ++ ~~~f.vvvv ++ BitVec.ofBool f.l ++ f.pp

/-- Byte P0 of the EVEX prefix (R49). `r`, `x`, `b`, `r2` (the spec's R') are the true values; `rsv` is bits 3:2. -/
structure EvexP0 where
  r   : Bool
  x   : Bool
  b   : Bool
  r2  : Bool
  rsv : BitVec 2
  mm  : BitVec 2
deriving DecidableEq, Repr

def EvexP0.ofByte (c : Byte) : EvexP0 where
  r   := !bitAt c 7
  x   := !bitAt c 6
  b   := !bitAt c 5
  r2  := !bitAt c 4
  rsv := c.extractLsb' 2 2
  mm  := c.extractLsb' 0 2

def EvexP0.toByte (f : EvexP0) : Byte :=
  BitVec.ofBool (!f.r) ++ BitVec.ofBool (!f.x) ++ BitVec.ofBool (!f.b) ++ BitVec.ofBool (!f.r2) ++
    f.rsv ++ f.mm

/-- Byte P1 of the EVEX prefix (R49); `vvvv` is the true value, `one` is the bit that must be 1. -/
structure EvexP1 where
  w    : Bool
  vvvv : BitVec 4
  one  : Bool
  pp   : BitVec 2
deriving DecidableEq, Repr

def EvexP1.ofByte (c : Byte) : EvexP1 where
  w    := bitAt c 7
  vvvv := ~~~(c.extractLsb' 3 4)
  one  := bitAt c 2
  pp   := c.extractLsb' 0 2

def EvexP1.toByte (f : EvexP1) : Byte :=
  BitVec.ofBool f.w ++ ~~~f.vvvv ++ BitVec.ofBool f.one ++ f.pp

/-- Byte P2 of the EVEX prefix (R49); `v2` (the spec's V') is the true value. -/
structure EvexP2 where
  z   : Bool
  ll  : BitVec 2
  b   : Bool
  v2  : Bool
  aaa : BitVec 3
deriving DecidableEq, Repr

def EvexP2.ofByte (c : Byte) : EvexP2 where
  z   := bitAt c 7
  ll  := c.extractLsb' 5 2
  b   := bitAt c 4
  v2  := !bitAt c 3
  aaa := c.extractLsb' 0 3

def EvexP2.toByte (f : EvexP2) : Byte :=
  BitVec.ofBool f.z ++ f.ll ++ BitVec.ofBool f.b ++ BitVec.ofBool (!f.v2) ++ f.aaa

/-- `e ++ n`: an extension bit above a 3-bit field (R50). -/
def ext4 (e : Bool) (n : BitVec 3) : GprNum := BitVec.ofBool e ++ n

/-- `e ++ n`: an extension bit above a 4-bit number (R50). -/
def ext5 (e : Bool) (n : BitVec 4) : VecNum := BitVec.ofBool e ++ n

/-- The low three bits of a 4-bit number: what the ModRM or SIB field holds. -/
def low3 (n : GprNum) : BitVec 3 := n.extractLsb' 0 3

/-! ### The operand after the opcode: ModRM, SIB, displacement (R45, R46, R56, R57) -/

/-- Four displacement bytes, least significant first (R56). -/
def take32 : List Byte → Option (Dword × List Byte)
  | b0 :: b1 :: b2 :: b3 :: t => some (b3 ++ b2 ++ b1 ++ b0, t)
  | _ => none

/-- The four bytes of a 32-bit displacement. -/
def bytes32 (d : Dword) : List Byte :=
  [d.extractLsb' 0 8, d.extractLsb' 8 8, d.extractLsb' 16 8, d.extractLsb' 24 8]

/-- The displacement that `mod` (00, 01 or 10) asks for. -/
def takeDisp (mod : BitVec 2) (t : List Byte) : Option (Disp × List Byte) :=
  if mod = 0#2 then some (.none, t)
  else if mod = 1#2 then
    match t with
    | [] => none
    | b :: t' => some (.d8 b, t')
  else
    match take32 t with
    | none => none
    | some (d, t') => some (.d32 d, t')

/-- The memory operand under 32-bit or 64-bit addressing, from `mod` and `r/m` (R57, R60). -/
def decodeAddr (x b : Bool) (mod : BitVec 2) (rm : BitVec 3) (t : List Byte) : Option (Addr × List Byte) :=
  if rm = 4#3 then
    match t with
    | [] => none
    | c :: t' =>
      let sib := Sib.ofByte c
      let index := if ext4 x sib.index = 4#4 then none else some (ext4 x sib.index)
      if mod = 0#2 ∧ sib.base = 5#3 then
        match take32 t' with
        | none => none
        | some (d, t'') => some (.sibNoBase b sib.scale index d, t'')
      else
        match takeDisp mod t' with
        | none => none
        | some (disp, t'') => some (.sib sib.scale index (ext4 b sib.base) disp, t'')
  else if mod = 0#2 ∧ rm = 5#3 then
    match take32 t with
    | none => none
    | some (d, t') => some (.disp32 x b d, t')
  else
    match takeDisp mod t with
    | none => none
    | some (disp, t') => some (.base x (ext4 b rm) disp, t')

/-- ModRM and what follows it: the `reg` field, the operand and the bytes after it; `none`: more bytes are needed.
A memory operand under 16-bit addressing ends at its ModRM byte: the spec gives no displacement rule for it (R60), so its
displacement bytes are not asked for (DESIGN CHOICE, notes/assumptions/37.md). -/
def decodeRM (sz : AddrSize) (x b : Bool) : List Byte → Option (BitVec 3 × RegMem × List Byte)
  | [] => none
  | c :: t =>
    let f := ModRM.ofByte c
    if f.mod = 3#2 then some (f.reg, .reg x (ext4 b f.rm), t)
    else if sz = .a16 then some (f.reg, .mem (.addr16 f.mod f.rm), t)
    else
      match decodeAddr x b f.mod f.rm t with
      | none => none
      | some (a, t') => some (f.reg, .mem a, t')

/-! ### The decoder (R61) -/

/-- Why a byte string gets no meaning. -/
inductive DecodeRefusal where
  /-- Not one of the six forms (R61 step 6, D1). -/
  | notThisInstruction
  /-- `0F 38 28` with `66` and also `F2` or `F3` (R64, first row). -/
  | repeatPrefix
  /-- Outside 64-bit mode, a value of B, R', V' or vvvv bit 3 that R48 refuses. -/
  | extensionBits
deriving DecidableEq, Repr

/-- What decoding a byte string answers. -/
inductive DecodeResult where
  /-- The instruction and the bytes after it. -/
  | ok (i : Instr) (rest : List Byte)
  /-- One of the invalid encodings that raise #UD (R64, R65). -/
  | invalid
  | refuse (r : DecodeRefusal)
  /-- The bytes end before the instruction does. -/
  | more
deriving DecidableEq, Repr

/-- R65: prefixes that may not stand before a VEX or EVEX prefix. -/
def forbiddenBeforeVex (pre : List LegacyPrefix) : Bool :=
  pre.contains .lock || pre.contains .opSize || pre.contains .repne || pre.contains .rep

/-- F-SSE after the three opcode bytes (R61 step 5, R43, R50). `rex` is the REX prefix, if there is one. -/
def decodeSse (m : Mode) (pre : List LegacyPrefix) (rex : Option Rex) (t : List Byte) : DecodeResult :=
  let r := rex.getD ⟨false, false, false, false⟩
  if !pre.contains .opSize then .refuse .notThisInstruction
  else if pre.contains .repne || pre.contains .rep then .refuse .repeatPrefix
  else
    match decodeRM (addrSizeOf m pre) r.x r.b t with
    | none => .more
    | some (reg, src, rest) =>
      if pre.contains .lock then .invalid
      else .ok (.pmuldq pre (rex.map Rex.w) (ext4 r.r reg) src) rest

/-- The opcode bytes `0F 38 28` of F-SSE. -/
def decodeLegacy (m : Mode) (pre : List LegacyPrefix) (rex : Option Rex) : List Byte → DecodeResult
  | [] => .more
  | [b0] => if b0 = 0x0F#8 then .more else .refuse .notThisInstruction
  | [b0, b1] => if b0 = 0x0F#8 ∧ b1 = 0x38#8 then .more else .refuse .notThisInstruction
  | b0 :: b1 :: b2 :: t =>
    if b0 = 0x0F#8 ∧ b1 = 0x38#8 ∧ b2 = 0x28#8 then decodeSse m pre rex t
    else .refuse .notThisInstruction

/-- A three-byte VEX prefix after its `C4` (R47, R48, R61 step 2). `afterRex`: a REX byte stands before it. The refusal of
R48 comes before every other condition of the instruction: the #UD of R65, the #UD and #NM of the availability checks (R110,
R112, R113), a fetch fault or #GP(0) in the bytes after the opcode (DESIGN CHOICE, notes/assumptions/36.md). -/
def decodeVex (m : Mode) (pre : List LegacyPrefix) (afterRex : Bool) : List Byte → DecodeResult
  | p0 :: p1 :: op :: t =>
    let f := VexP0.ofByte p0
    let g := VexP1.ofByte p1
    if f.map ≠ 2#5 ∨ g.pp ≠ 1#2 ∨ op ≠ 0x28#8 then .refuse .notThisInstruction
    else if m ≠ .mode64 ∧ (f.b || bitAt g.vvvv 3) = true then .refuse .extensionBits
    else
      match decodeRM (addrSizeOf m pre) f.x f.b t with
      | none => .more
      | some (reg, src, rest) =>
        if (afterRex || forbiddenBeforeVex pre) = true then .invalid
        else if g.l then .ok (.vpmuldqVex256 pre g.w (ext4 f.r reg) g.vvvv src) rest
        else .ok (.vpmuldqVex128 pre g.w (ext4 f.r reg) g.vvvv src) rest
  | _ => .more

/-- The writemask that `aaa` and `z` name (R53, R54); `none` for `z = 1` with `aaa = 000`. -/
def maskingOf (aaa : BitVec 3) (z : Bool) : Option Masking :=
  if aaa = 0#3 then (if z then none else some .none)
  else if z then some (.zero aaa)
  else some (.merge aaa)

/-- The second source of an EVEX form from its operand and `EVEX.b`; `none` for `b = 1` with a register (R55). -/
def evexSrcOf (b : Bool) (src : RegMem) : Option EvexSrc :=
  if b then
    match src with
    | .reg _ _ => none
    | .mem a => some (.bcst a)
  else some (.rm src)

/-- The EVEX form that `L'L` names (R51); `none` for `L'L = 11`. -/
def evexInstrOf (ll : BitVec 2) (pre : List LegacyPrefix) (d a : VecNum) (mk : Masking) (src : EvexSrc) :
    Option Instr :=
  if ll = 0#2 then some (.vpmuldqEvex128 pre d a mk src)
  else if ll = 1#2 then some (.vpmuldqEvex256 pre d a mk src)
  else if ll = 2#2 then some (.vpmuldqEvex512 pre d a mk src)
  else none

/-- The EVEX instruction whose fields are given, or `none` where a field has a value that raises #UD (R64). -/
def evexInstr (pre : List LegacyPrefix) (f : EvexP0) (g : EvexP1) (h : EvexP2) (reg : BitVec 3) (src : RegMem) :
    Option Instr :=
  if f.rsv ≠ 0#2 ∨ g.one = false ∨ g.w = false then none
  else
    match maskingOf h.aaa h.z, evexSrcOf h.b src with
    | some mk, some src2 =>
      evexInstrOf h.ll pre (ext5 f.r2 (ext4 f.r reg)) (ext5 h.v2 g.vvvv) mk src2
    | _, _ => none

/-- A four-byte EVEX prefix after its `62` (R48, R49, R61 step 3). The refusal of R48 comes before every other condition of
the instruction: the #UD of R64 and R65, the #UD and #NM of the availability checks (R111 to R113), a fetch fault or #GP(0) in
the bytes after the opcode (DESIGN CHOICE, notes/assumptions/36.md). -/
def decodeEvex (m : Mode) (pre : List LegacyPrefix) (afterRex : Bool) : List Byte → DecodeResult
  | p0 :: p1 :: p2 :: op :: t =>
    let f := EvexP0.ofByte p0
    let g := EvexP1.ofByte p1
    let h := EvexP2.ofByte p2
    if f.mm ≠ 2#2 ∨ g.pp ≠ 1#2 ∨ op ≠ 0x28#8 then .refuse .notThisInstruction
    else if m ≠ .mode64 ∧ (f.b || f.r2 || h.v2 || bitAt g.vvvv 3) = true then .refuse .extensionBits
    else
      match decodeRM (addrSizeOf m pre) f.x f.b t with
      | none => .more
      | some (reg, src, rest) =>
        if (afterRex || forbiddenBeforeVex pre) = true then .invalid
        else
          match evexInstr pre f g h reg src with
          | none => .invalid
          | some i => .ok i rest
  | _ => .more

/-- R48: outside 64-bit mode `C4` and `62` are a VEX or EVEX prefix only if bits [7:6] of the byte after
them are `11`. -/
def vexAllowed (m : Mode) (p0 : Byte) : Bool :=
  decide (m = .mode64) || p0.extractLsb' 6 2 == 3#2

/-- Steps 2 to 6 of R61, on the bytes after the legacy prefixes. -/
def decodeBody (m : Mode) (pre : List LegacyPrefix) : List Byte → DecodeResult
  | [] => .more
  | [c] =>
    if c = 0xC4#8 ∨ c = 0x62#8 ∨ (m = .mode64 ∧ Rex.isRex c = true) then .more
    else decodeLegacy m pre none [c]
  | c :: c' :: t =>
    if c = 0xC4#8 then
      if vexAllowed m c' then decodeVex m pre false (c' :: t) else .refuse .notThisInstruction
    else if c = 0x62#8 then
      if vexAllowed m c' then decodeEvex m pre false (c' :: t) else .refuse .notThisInstruction
    else if m = .mode64 ∧ Rex.isRex c = true then
      if c' = 0xC4#8 then decodeVex m pre true t
      else if c' = 0x62#8 then decodeEvex m pre true t
      else decodeLegacy m pre (some (Rex.ofByte c)) (c' :: t)
    else decodeLegacy m pre none (c :: c' :: t)

/-- The decoder (R61). -/
def decode (m : Mode) (bs : List Byte) : DecodeResult :=
  decodeBody m (splitPrefixes bs).1 (splitPrefixes bs).2

/-! ### The encoder, from the same tables -/

/-- The `mod` field of a displacement (R56). -/
def Disp.mod : Disp → BitVec 2
  | .none => 0#2
  | .d8 _ => 1#2
  | .d32 _ => 2#2

/-- The displacement bytes. -/
def Disp.bytes : Disp → List Byte
  | .none => []
  | .d8 b => [b]
  | .d32 d => bytes32 d

/-- The X bit an index needs; no index is `Xx ++ SIB.index = 0100`. -/
def indexX : Option GprNum → Bool
  | none => false
  | some n => bitAt n 3

/-- The `SIB.index` field. -/
def indexField : Option GprNum → BitVec 3
  | none => 4#3
  | some n => low3 n

/-- The X extension bit of an address. -/
def Addr.xbit : Addr → Bool
  | .base x _ _ => x
  | .sib _ index _ _ => indexX index
  | .sibNoBase _ _ index _ => indexX index
  | .disp32 x _ _ => x
  | .addr16 _ _ => false

/-- The B extension bit of an address. -/
def Addr.bbit : Addr → Bool
  | .base _ b _ => bitAt b 3
  | .sib _ _ b _ => bitAt b 3
  | .sibNoBase b _ _ _ => b
  | .disp32 _ b _ => b
  | .addr16 _ _ => false

/-- ModRM with the given `reg` field, SIB and displacement of a memory operand. -/
def Addr.bytes (reg : BitVec 3) : Addr → List Byte
  | .base _ b disp => (ModRM.mk disp.mod reg (low3 b)).toByte :: disp.bytes
  | .sib scale index b disp =>
    (ModRM.mk disp.mod reg 4#3).toByte :: (Sib.mk scale (indexField index) (low3 b)).toByte :: disp.bytes
  | .sibNoBase _ scale index d =>
    (ModRM.mk 0#2 reg 4#3).toByte :: (Sib.mk scale (indexField index) 5#3).toByte :: bytes32 d
  | .disp32 _ _ d => (ModRM.mk 0#2 reg 5#3).toByte :: bytes32 d
  | .addr16 mod rm => [(ModRM.mk mod reg rm).toByte]

/-- The X extension bit of an operand. -/
def RegMem.xbit : RegMem → Bool
  | .reg x _ => x
  | .mem a => a.xbit

/-- The B extension bit of an operand. -/
def RegMem.bbit : RegMem → Bool
  | .reg _ n => bitAt n 3
  | .mem a => a.bbit

/-- ModRM and what follows it. -/
def RegMem.bytes (reg : BitVec 3) : RegMem → List Byte
  | .reg _ n => [(ModRM.mk 3#2 reg (low3 n)).toByte]
  | .mem a => a.bytes reg

/-- The operand of an EVEX form without its broadcast bit. -/
def EvexSrc.operand : EvexSrc → RegMem
  | .rm src => src
  | .bcst a => .mem a

/-- `EVEX.b` (R55). -/
def EvexSrc.bbcst : EvexSrc → Bool
  | .rm _ => false
  | .bcst _ => true

/-- `EVEX.aaa` (R53). -/
def Masking.aaa : Masking → BitVec 3
  | .none => 0#3
  | .merge k => k
  | .zero k => k

/-- `EVEX.z` (R54). -/
def Masking.z : Masking → Bool
  | .none => false
  | .merge _ => false
  | .zero _ => true

def encodeSse (pre : List LegacyPrefix) (rex : Option Bool) (d : GprNum) (src : RegMem) : List Byte :=
  pre.map LegacyPrefix.byte ++
    (match rex with
      | none => []
      | some w => [(Rex.mk w (bitAt d 3) src.xbit src.bbit).toByte]) ++
    [0x0F#8, 0x38#8, 0x28#8] ++ src.bytes (low3 d)

def encodeVex (l : Bool) (pre : List LegacyPrefix) (w : Bool) (d a : GprNum) (src : RegMem) : List Byte :=
  pre.map LegacyPrefix.byte ++
    [0xC4#8, (VexP0.mk (bitAt d 3) src.xbit src.bbit 2#5).toByte, (VexP1.mk w a l 1#2).toByte, 0x28#8] ++
    src.bytes (low3 d)

def encodeEvex (ll : BitVec 2) (pre : List LegacyPrefix) (d a : VecNum) (mk : Masking) (src : EvexSrc) :
    List Byte :=
  pre.map LegacyPrefix.byte ++
    [0x62#8,
      (EvexP0.mk (bitAt d 3) src.operand.xbit src.operand.bbit (bitAt d 4) 0#2 2#2).toByte,
      (EvexP1.mk true (a.extractLsb' 0 4) true 1#2).toByte,
      (EvexP2.mk mk.z ll src.bbcst (bitAt a 4) mk.aaa).toByte, 0x28#8] ++
    src.operand.bytes (d.extractLsb' 0 3)

/-- The bytes of a well-formed instruction (R42, R47, R49). -/
def encode : Instr → List Byte
  | .pmuldq pre rex d src => encodeSse pre rex d src
  | .vpmuldqVex128 pre w d a src => encodeVex false pre w d a src
  | .vpmuldqVex256 pre w d a src => encodeVex true pre w d a src
  | .vpmuldqEvex128 pre d a mk src => encodeEvex 0#2 pre d a mk src
  | .vpmuldqEvex256 pre d a mk src => encodeEvex 1#2 pre d a mk src
  | .vpmuldqEvex512 pre d a mk src => encodeEvex 2#2 pre d a mk src

/-! ### Length (R62) -/

/-- The number of displacement bytes. -/
def Disp.length : Disp → Nat
  | .none => 0
  | .d8 _ => 1
  | .d32 _ => 4

/-- The number of SIB and displacement bytes. Under 16-bit addressing the spec gives no displacement
rule (R60); such an instruction never completes in this model, so its length is not used. -/
def Addr.tailLength : Addr → Nat
  | .base _ _ disp => disp.length
  | .sib _ _ _ disp => 1 + disp.length
  | .sibNoBase _ _ _ _ => 5
  | .disp32 _ _ _ => 4
  | .addr16 _ _ => 0

/-- The number of bytes after ModRM. -/
def RegMem.tailLength : RegMem → Nat
  | .reg _ _ => 0
  | .mem a => a.tailLength

/-- The length of an F-SSE encoding. -/
def lengthSse (pre : List LegacyPrefix) (rex : Option Bool) (src : RegMem) : Nat :=
  pre.length + (if rex.isSome then 1 else 0) + 3 + 1 + src.tailLength

/-- The length of a VEX encoding. -/
def lengthVex (pre : List LegacyPrefix) (src : RegMem) : Nat := pre.length + 4 + 1 + src.tailLength

/-- The length of an EVEX encoding. -/
def lengthEvex (pre : List LegacyPrefix) (src : EvexSrc) : Nat := pre.length + 5 + 1 + src.operand.tailLength

/-- `len`, the number of bytes of an instruction (R62). -/
def Instr.length : Instr → Nat
  | .pmuldq pre rex _ src => lengthSse pre rex src
  | .vpmuldqVex128 pre _ _ _ src => lengthVex pre src
  | .vpmuldqVex256 pre _ _ _ src => lengthVex pre src
  | .vpmuldqEvex128 pre _ _ _ src => lengthEvex pre src
  | .vpmuldqEvex256 pre _ _ _ src => lengthEvex pre src
  | .vpmuldqEvex512 pre _ _ _ src => lengthEvex pre src

/-! ### The words of spec/opcode_table.json -/

/-- The longest instruction (R41). -/
def maxLength : Nat := 15

/-- The bytes of an `n`-byte number, the first byte in the most significant position. -/
def bytesHighFirst : Nat → Nat → List Byte
  | 0, _ => []
  | n + 1, w => BitVec.ofNat 8 (w / 256 ^ n) :: bytesHighFirst n w

/-- The bytes of an `n`-byte number, the first byte in the least significant position. -/
def bytesLowFirst : Nat → Nat → List Byte
  | 0, _ => []
  | n + 1, w => BitVec.ofNat 8 w :: bytesLowFirst n (w / 256)

/-- Zero bytes up to the longest instruction. -/
def padToMax (bs : List Byte) : List Byte := bs ++ List.replicate (maxLength - bs.length) 0#8

/-- The bytes, in memory order, of a word of the opcode table. The table says of its own numbers "first byte in
the most significant position"; a word that is no instruction so read is read with the first byte in the least
significant position. No word of the table is an instruction both ways (notes/assumptions/21.md). -/
def tableBytes (nbits w : Nat) : List Byte :=
  match decode .mode64 (padToMax (bytesHighFirst ((nbits + 7) / 8) w)) with
  | .ok _ _ => padToMax (bytesHighFirst ((nbits + 7) / 8) w)
  | _ => padToMax (bytesLowFirst ((nbits + 7) / 8) w)

/-- The instruction the decoder reads, in 64-bit mode, from a word of the opcode table. -/
def decodeTableWord (nbits w : Nat) : Option Instr :=
  match decode .mode64 (tableBytes nbits w) with
  | .ok i _ => some i
  | _ => none

end Sys2Proof
end

