-- ==== Sys2Proof/Machine/Operands.lean ====
section
/-! DEFINITION. Operand forms: effective addresses, segments and the second source
(spec/30_encoding.md R50, R55 to R60; spec/42_vpmuldq_evex.md R91). -/

namespace Sys2Proof.Machine

/-- The address of the next instruction, `pc + len` (R58). -/
def nextIp (s : State) (len : Nat) : Qword := ip s + BitVec.ofNat 64 len

/-- A displacement as a number: an 8-bit one is sign-extended and scaled by `n`, a 32-bit one sign-extended (R56). -/
def dispValue (n : Nat) : Disp → Qword
  | .none => 0#64
  | .d8 b => b.signExtend 64 * BitVec.ofNat 64 n
  | .d32 d => d.signExtend 64

/-- `x[index] * 2^scale`, or 0 without an index (R57). -/
def indexPart (s : State) (scale : BitVec 2) (index : Option GprNum) : Qword :=
  match index with
  | none => 0#64
  | some i => readX s i <<< scale.toNat

/-- The address before truncation to the address size (R57, R58, R60); `none` under 16-bit addressing. -/
def rawAddress (s : State) (n len : Nat) : Addr → Option Qword
  | .base _ b disp => some (readX s b + dispValue n disp)
  | .sib scale index b disp => some (readX s b + indexPart s scale index + dispValue n disp)
  | .sibNoBase _ scale index d => some (d.signExtend 64 + indexPart s scale index)
  | .disp32 _ _ d =>
    match s.mode with
    | .mode64 => some (nextIp s len + d.signExtend 64)
    | .mode32 => some (d.signExtend 64)
    | .realAddress => some (d.signExtend 64)
    | .virtual8086 => some (d.signExtend 64)
  | .addr16 _ _ => none

/-- Truncation to the address size (R57, R60). -/
def clipAddress : AddrSize → Qword → Qword
  | .a64, x => x
  | .a32, x => low32 x
  | .a16, x => (x.setWidth 16).setWidth 64

/-- `EA` (R57, R60). `n` scales an 8-bit displacement, `len` is the instruction's length. -/
def effectiveAddress (s : State) (pre : List LegacyPrefix) (n len : Nat) (a : Addr) : Option Qword :=
  (rawAddress s n len a).map (clipAddress (addrSizeOf s.mode pre))

/-- The segment overrides of an instruction, in order, each with its byte. -/
def overrides (pre : List LegacyPrefix) : List (Seg × Byte) :=
  pre.filterMap fun p => p.seg.map fun g => (g, p.byte)

/-- The segment override that counts. Where several different ones are present the spec does not say which:
the choice among them is free (`Config.segmentPick`, notes/assumptions/1.md). -/
def overrideOf (pre : List LegacyPrefix) : Option Seg :=
  match overrides pre with
  | [] => none
  | (g, c) :: t =>
    if t.all (fun q => q.1 == g) then some g
    else some (((g, c) :: t).getD (Config.segmentPick (c :: t.map Prod.snd) % (t.length + 1)) (g, c)).1

/-- The stack segment is the default when the base register's 3-bit field is 4 or 5 (R57). -/
def stackBase (b : GprNum) : Bool := low3 b == 4#3 || low3 b == 5#3

/-- The default segment of an address is the stack segment (R57). -/
def defaultStack : Addr → Bool
  | .base _ b _ => stackBase b
  | .sib _ _ b _ => stackBase b
  | .sibNoBase _ _ _ _ => false
  | .disp32 _ _ _ => false
  | .addr16 _ _ => false

/-- The access uses the stack segment: the default is and there is no override, or an SS override (R34). -/
def usesStack (pre : List LegacyPrefix) (a : Addr) : Bool :=
  match overrideOf pre with
  | none => defaultStack a
  | some g => g == .ss

/-- The segment base (R59): zero but for FS and GS. -/
def segmentBase (s : State) (pre : List LegacyPrefix) : Qword :=
  match overrideOf pre with
  | some .fs => s.fsBase
  | some .gs => s.gsBase
  | some .cs => 0#64
  | some .ss => 0#64
  | some .ds => 0#64
  | some .es => 0#64
  | none => 0#64

/-- The linear address, segment base plus `EA` (R59). That the sum is taken modulo the size of the address space, and that
R34's limit is tested on it and not on the offset `EA`, is the model's choice (DESIGN CHOICE, notes/assumptions/35.md). -/
def linearAddress (s : State) (pre : List LegacyPrefix) (n len : Nat) (a : Addr) : Option Qword :=
  (effectiveAddress s pre n len a).map fun ea =>
    match s.mode with
    | .mode64 => segmentBase s pre + ea
    | .mode32 => low32 (segmentBase s pre + ea)
    | .realAddress => low32 (segmentBase s pre + ea)
    | .virtual8086 => low32 (segmentBase s pre + ea)

/-- Only F-SSE has an alignment rule (R28). -/
def alignedForm : Form → Bool
  | .sse => true
  | .vex128 => false
  | .vex256 => false
  | .evex128 => false
  | .evex256 => false
  | .evex512 => false

/-- What scales an 8-bit displacement of a full-width operand: VL/8 for the EVEX forms, 1 for the others (R56). -/
def dispScale : Form → Nat
  | .sse => 1
  | .vex128 => 1
  | .vex256 => 1
  | .evex128 => 16
  | .evex256 => 32
  | .evex512 => 64

/-- The linear address of a memory operand, once the checks of `MemRead` on its `bytes` bytes have passed. -/
def operandAddress (s : State) (f : Form) (pre : List LegacyPrefix) (n bytes len : Nat) (a : Addr) : Read Nat :=
  match linearAddress s pre n len a with
  | none => .refuse .addressing16
  | some la => (checkRead s (alignedForm f) (usesStack pre a) la.toNat bytes).map fun _ => la.toNat

/-- The number of the register that `ModRM:r/m` names: the X bit counts in the EVEX forms only (R50). -/
def regNumber (f : Form) (x : Bool) (n : GprNum) : VecNum :=
  match f with
  | .sse => n.setWidth 5
  | .vex128 => n.setWidth 5
  | .vex256 => n.setWidth 5
  | .evex128 => ext5 x n
  | .evex256 => ext5 x n
  | .evex512 => ext5 x n

/-- The second source as `KL` lanes: a register, `VL/8` bytes of memory, or 8 bytes of memory in every lane
(R27, R55, R91). The whole operand is read whatever the mask holds (R30). -/
def source2 (s : State) (f : Form) (pre : List LegacyPrefix) (len : Nat) : EvexSrc → Read Vec
  | .rm (.reg x n) => .value (lowLanes f.kl (readV s (regNumber f x n)))
  | .rm (.mem a) =>
    (operandAddress s f pre (dispScale f) (8 * f.kl) len a).map fun la => readVec s.mem la f.kl
  | .bcst a =>
    (operandAddress s f pre 8 8 len a).map fun la => broadcast (readQword s.mem la) f.kl

end Sys2Proof.Machine
end

