-- ==== Sys2Proof/Machine/Evex.lean ====
section
/-! DEFINITION. The EVEX forms (spec/42_vpmuldq_evex.md R90 to R101). -/

namespace Sys2Proof.Machine

/-- `EvexMul(VL, d, a, src2spec, aaa, z)` (R90). -/
def evexMul (f : Form) (pre : List LegacyPrefix) (d a : VecNum) (mk : Masking) (src : EvexSrc) (s : State) :
    Host.Outcome State Fault Refusal :=
  let len := lengthEvex pre src
  runForm f len (source2 s f pre len src)
    (fun y => writeV s d (evexResult s f.kl mk (readV s d) (readV s a) y)) s

/-- `VPMULDQ xmm1 {k1}{z}, xmm2, xmm3/m128/m64bcst` (R95). -/
def execVpmuldqEvex128 (pre : List LegacyPrefix) (d a : VecNum) (mk : Masking) (src : EvexSrc) (s : State) :
    Host.Outcome State Fault Refusal :=
  evexMul .evex128 pre d a mk src s

/-- `VPMULDQ ymm1 {k1}{z}, ymm2, ymm3/m256/m64bcst` (R96). -/
def execVpmuldqEvex256 (pre : List LegacyPrefix) (d a : VecNum) (mk : Masking) (src : EvexSrc) (s : State) :
    Host.Outcome State Fault Refusal :=
  evexMul .evex256 pre d a mk src s

/-- `VPMULDQ zmm1 {k1}{z}, zmm2, zmm3/m512/m64bcst` (R97). -/
def execVpmuldqEvex512 (pre : List LegacyPrefix) (d a : VecNum) (mk : Masking) (src : EvexSrc) (s : State) :
    Host.Outcome State Fault Refusal :=
  evexMul .evex512 pre d a mk src s

end Sys2Proof.Machine
end

