-- ==== Sys2Proof/Machine/Sse.lean ====
section
/-! DEFINITION. The legacy SSE form (spec/40_pmuldq_sse.md R73 to R75). -/

namespace Sys2Proof.Machine

/-- `PMULDQ xmm1, xmm2/m128` (R73): bits [127:0] of the destination become the two products, the bits above
stay (R74). -/
def execPmuldq (pre : List LegacyPrefix) (rex : Option Bool) (d : GprNum) (src : RegMem) (s : State) :
    Host.Outcome State Fault Refusal :=
  let d5 : VecNum := d.setWidth 5
  let len := lengthSse pre rex src
  runForm .sse len (source2 s .sse pre len (.rm src))
    (fun y => writeV s d5 (replaceLow 2 (readV s d5) (packedMul 2 (readV s d5) y))) s

end Sys2Proof.Machine
end

