-- ==== Sys2Proof/Machine/Vex.lean ====
section
/-! DEFINITION. The VEX forms (spec/41_vpmuldq_vex.md R80 to R83). -/

namespace Sys2Proof.Machine

/-- The pseudocode shared by R80 and R81: the destination becomes the products, zero-extended to `MAX_VL`. -/
def vexMul (f : Form) (pre : List LegacyPrefix) (d a : GprNum) (src : RegMem) (s : State) :
    Host.Outcome State Fault Refusal :=
  let len := lengthVex pre src
  runForm f len (source2 s f pre len (.rm src))
    (fun y => writeV s (d.setWidth 5) (packedMul f.kl (readV s (a.setWidth 5)) y)) s

/-- `VPMULDQ xmm1, xmm2, xmm3/m128` (R80). The W bit has no effect (R82). -/
def execVpmuldqVex128 (pre : List LegacyPrefix) (_w : Bool) (d a : GprNum) (src : RegMem) (s : State) :
    Host.Outcome State Fault Refusal :=
  vexMul .vex128 pre d a src s

/-- `VPMULDQ ymm1, ymm2, ymm3/m256` (R81). The W bit has no effect (R82). -/
def execVpmuldqVex256 (pre : List LegacyPrefix) (_w : Bool) (d a : GprNum) (src : RegMem) (s : State) :
    Host.Outcome State Fault Refusal :=
  vexMul .vex256 pre d a src s

end Sys2Proof.Machine
end

