-- ==== Sys2Proof/Machine/Dispatch.lean ====
section
/-! DEFINITION. One arm per constructor of Instr: the meaning of each form. -/

namespace Sys2Proof.Machine

def exec (i : Instr) (s : State) : Host.Outcome State Fault Refusal :=
  match i with
  | .pmuldq pre rex d src => Sys2Proof.Machine.execPmuldq pre rex d src s
  | .vpmuldqVex128 pre w d a src => Sys2Proof.Machine.execVpmuldqVex128 pre w d a src s
  | .vpmuldqVex256 pre w d a src => Sys2Proof.Machine.execVpmuldqVex256 pre w d a src s
  | .vpmuldqEvex128 pre d a m src => Sys2Proof.Machine.execVpmuldqEvex128 pre d a m src s
  | .vpmuldqEvex256 pre d a m src => Sys2Proof.Machine.execVpmuldqEvex256 pre d a m src s
  | .vpmuldqEvex512 pre d a m src => Sys2Proof.Machine.execVpmuldqEvex512 pre d a m src s

end Sys2Proof.Machine
end

