-- ==== Sys2Proof/Machine/Fetch.lean ====
section
/-! DEFINITION. Fetching and decoding the instruction at `pc` (spec/20_memory.md R37, spec/60_exceptions.md R117), and
the launch (spec/70_reset_and_hazards.md R131, R132). -/

namespace Sys2Proof.Machine

/-- The linear address instructions are fetched at: `pc` with a code-segment base of zero in the modes of the spec
(R59), and `csBase + EIP` in the mode of reset (R23; PRESUMED for its use, notes/assumptions/4.md). -/
def fetchAddress (s : State) : Nat :=
  match s.mode with
  | .mode64 => (ip s).toNat
  | .mode32 => (ip s).toNat
  | .realAddress => (low32 (s.csBase + ip s)).toNat
  | .virtual8086 => (low32 (s.csBase + ip s)).toNat

/-- Reading one code byte: past the top of the address space is refused (R16, D12), otherwise `Access` (R37). -/
def codeByte (s : State) (a : Nat) : Read Byte :=
  if a < s.mode.top then (access s false a 1).map fun _ => readByte s.mem a
  else .refuse .pcWrap

/-- Up to `n` code bytes from `a` on, in increasing order, and what stops the reading before the `n`-th. -/
def codeBytes (s : State) : Nat → Nat → List Byte × Option (Read Byte)
  | _, 0 => ([], none)
  | a, n + 1 =>
    match codeByte s a with
    | .value b => (b :: (codeBytes s (a + 1) n).1, (codeBytes s (a + 1) n).2)
    | .raise e => ([], some (.raise e))
    | .refuse r => ([], some (.refuse r))

/-- The bytes the instruction at `pc` can have: at most 15 (R41). -/
def window (s : State) : List Byte × Option (Read Byte) := codeBytes s (fetchAddress s) maxLength

/-- The refusal of a byte string that gets no meaning. -/
def refusalOf : DecodeRefusal → Refusal
  | .notThisInstruction => .notThisInstruction
  | .repeatPrefix => .repeatPrefix
  | .extensionBits => .extensionBits

/-- The instruction at `pc`. Bytes that run out before the instruction ends: a fetch fault (or refusal) where a byte
could not be read, else the instruction is longer than 15 bytes, #GP(0) (R41, R117). An invalid encoding is #UD (R112).
A code byte in a device region is refused where a fetch fault would be raised for it, at the first such byte, so before the
15-byte #GP(0), #UD and #NM (DESIGN CHOICE, notes/assumptions/23.md). -/
def fetch (s : State) : Read Instr :=
  match decode s.mode (window s).1 with
  | .ok i _ => .value i
  | .invalid => .raise .ud
  | .refuse r => .refuse (refusalOf r)
  | .more =>
    match (window s).2 with
    | some (.raise e) => .raise e
    | some (.refuse r) => .refuse r
    | some (.value _) => .raise .gp0
    | none => .raise .gp0

/-- The canonical 48-bit address space, all ordinary memory readable at every privilege level (R131 step 7). -/
def flatRegions : List Region :=
  [⟨0, 2 ^ 47, .ordinary, true⟩, ⟨2 ^ 64 - 2 ^ 47, 2 ^ 47, .ordinary, true⟩]

/-- What software must have done before a form runs (R131): 64-bit mode, the vector state enabled in CR0, CR4 and
XCR0, CR0.TS clear, memory mapped. Registers, processor and instruction pointer stay. -/
def launch (s : State) : State :=
  { s with
    mode := .mode64
    cr0 := s.cr0 &&& ~~~0xC#64
    cr4 := s.cr4 ||| 0x40200#64
    xcr0 := s.xcr0 ||| 0xE7#64
    regions := flatRegions }

/-- The launched state with program bytes placed where the next instruction is fetched (R132). -/
def loadProgram (s : State) (bs : List Byte) : State :=
  { launch s with mem := writeBytes s.mem (fetchAddress (launch s)) bs }

end Sys2Proof.Machine
end

