-- ==== Sys2Proof/Machine/Step.lean ====
section
/-! DEFINITION. One step: fetch, decode, execute (spec/20_memory.md R37, spec/60_exceptions.md R117). -/

namespace Sys2Proof.Machine

/-- One step of the processor. Three outcomes: the next state, an exception (R119), a refusal. -/
def step (s : State) : Host.Outcome State Fault Refusal :=
  match fetch s with
  | .value i => exec i s
  | .raise e => raiseException e s
  | .refuse r => .refused r

/-- `s` launched (R131, R132) with the instruction of an opcode-table word, and zero bytes after it up to the longest
instruction, where `step` fetches next (notes/assumptions/22.md). -/
def State.withFetchWord (s : State) (nbits w : Nat) : State := loadProgram s (tableBytes nbits w)

end Sys2Proof.Machine
end

