-- ==== Sys2Proof/WellFormed.lean ====
section
/-! DEFINITION. Which terms of Instr stand for an encoding of a mode (spec/30_encoding.md R41 to R65): one check
for each way a term can be malformed. Decode.lean answers only well-formed instructions of at most 15 bytes. -/

namespace Sys2Proof

/-- An index register is not number 4: `Xx ++ SIB.index = 0100` means no index (R57). -/
def indexWf (index : Option GprNum) : Bool := index != some 4#4

/-- The field value 101 with `mod = 00` is not a base register (R57). -/
def dispWf (b : GprNum) (disp : Disp) : Bool := disp != .none || low3 b != 5#3

/-- An address of the given address size is one that ModRM and SIB can spell (R57, R60). -/
def Addr.wf (sz : AddrSize) : Addr → Bool
  | .base _ b disp => sz != .a16 && low3 b != 4#3 && dispWf b disp
  | .sib _ index b disp => sz != .a16 && indexWf index && dispWf b disp
  | .sibNoBase _ _ index _ => sz != .a16 && indexWf index
  | .disp32 _ _ _ => sz != .a16
  | .addr16 mod _ => sz == .a16 && mod != 3#2

/-- The operand `ModRM:r/m` is well formed. -/
def RegMem.wf (sz : AddrSize) : RegMem → Bool
  | .reg _ _ => true
  | .mem a => a.wf sz

/-- No extension bit is set: what an encoding without REX, or outside 64-bit mode, can name (R43, R48, R50). -/
def RegMem.noExt (src : RegMem) : Bool := !src.xbit && !src.bbit

/-- `aaa = 000` is no writemask (R53). -/
def Masking.wf : Masking → Bool
  | .none => true
  | .merge k => k != 0#3
  | .zero k => k != 0#3

/-- F-SSE: `66` present, no `F2`, `F3` or `F0` (R42, R64, R65); REX only in 64-bit mode (R43); without it
registers 0 to 7. -/
def wfSse (m : Mode) (pre : List LegacyPrefix) (rex : Option Bool) (d : GprNum) (src : RegMem) : Bool :=
  pre.contains .opSize && !pre.contains .repne && !pre.contains .rep && !pre.contains .lock &&
  src.wf (addrSizeOf m pre) &&
  (match rex with
    | some _ => decide (m = .mode64)
    | none => !bitAt d 3 && src.noExt)

/-- VEX forms: no forbidden prefix (R65); registers 0 to 7 outside 64-bit mode (R48, R50). -/
def wfVex (m : Mode) (pre : List LegacyPrefix) (d a : GprNum) (src : RegMem) : Bool :=
  !forbiddenBeforeVex pre && src.wf (addrSizeOf m pre) &&
  (decide (m = .mode64) || (!bitAt d 3 && !bitAt a 3 && src.noExt))

/-- EVEX forms: as VEX, with the mask and 5-bit register numbers. -/
def wfEvex (m : Mode) (pre : List LegacyPrefix) (d a : VecNum) (mk : Masking) (src : EvexSrc) : Bool :=
  !forbiddenBeforeVex pre && src.operand.wf (addrSizeOf m pre) && mk.wf &&
  (decide (m = .mode64) ||
    (!bitAt d 3 && !bitAt d 4 && !bitAt a 3 && !bitAt a 4 && src.operand.noExt))

/-- The operands and prefixes are well formed for the mode. -/
def Instr.wfFields (m : Mode) : Instr → Bool
  | .pmuldq pre rex d src => wfSse m pre rex d src
  | .vpmuldqVex128 pre _ d a src => wfVex m pre d a src
  | .vpmuldqVex256 pre _ d a src => wfVex m pre d a src
  | .vpmuldqEvex128 pre d a mk src => wfEvex m pre d a mk src
  | .vpmuldqEvex256 pre d a mk src => wfEvex m pre d a mk src
  | .vpmuldqEvex512 pre d a mk src => wfEvex m pre d a mk src

/-- A well-formed instruction of a mode: its fields are, and it is at most 15 bytes long (R41). -/
def Instr.wf (m : Mode) (i : Instr) : Bool := i.wfFields m && decide (i.length ≤ maxLength)

end Sys2Proof
end

