-- ==== Sys2Proof/Safety.lean ====
section
/-! DEFINITION. The terms that statements about the machine use: what a form needs to complete, what it leaves
unchanged, the invariant of the state, and a successful run. -/

namespace Sys2Proof.Machine

/-- The availability checks of R112 and R113 pass and the mode is one of R3. -/
def Ready (f : Form) (s : State) : Prop :=
  featurePresent f s.cpu.feat = true ∧ osEnabled f s = true ∧ taskSwitched s = false ∧ s.mode.inSpec = true

/-- The address after an instruction of `len` bytes is inside the address space (R16). -/
def NextFits (len : Nat) (s : State) : Prop := (ip s).toNat + len < s.mode.top

/-- The byte at `a` can be read: a legal address in ordinary readable memory (R32, R34). -/
def ByteReadable (s : State) (a : Nat) : Prop := legalAddr s.mode a = true ∧ pageAnswer s a = .ordinary

/-- The `n` bytes at `a` can be read. -/
def BytesReadable (s : State) (a n : Nat) : Prop := ∀ i, i < n → ByteReadable s (a + i)

/-- The doubleword at `a`, least significant byte first (R26). -/
def dwordAt (m : Memory) (a : Nat) : Dword :=
  readByte m (a + 3) ++ readByte m (a + 2) ++ readByte m (a + 1) ++ readByte m a

/-- The memory operand `a` lies at linear address `la` and its `bytes` bytes can be read; for F-SSE `la` is a
multiple of 16 (R28). -/
def OperandAt (s : State) (f : Form) (pre : List LegacyPrefix) (n bytes len : Nat) (a : Addr) (la : Qword) : Prop :=
  linearAddress s pre n len a = some la ∧ (f = .sse → la.toNat % 16 = 0) ∧ BytesReadable s la.toNat bytes

/-- Bits `[64j+31:64j]` of `V[n]` (R72). -/
def evenOf (s : State) (n : VecNum) (j : Nat) : Dword := (vecBits (readV s n)).extractLsb' (64 * j) 32

/-- Bits `[64j+63:64j]` of `V[n]`. -/
def laneOf (s : State) (n : VecNum) (j : Nat) : Qword := (vecBits (readV s n)).extractLsb' (64 * j) 64

/-- `g j` is the doubleword that result element `j` takes from the second source (R27, R50, R91, R93): the even
doubleword of a register, the doubleword at byte offset `8j` of a readable memory operand, or the one at the address of
a readable broadcast operand. -/
def SourceGives (s : State) (f : Form) (pre : List LegacyPrefix) (len : Nat) (src : EvexSrc) (g : Nat → Dword) :
    Prop :=
  match src with
  | .rm (.reg x n) => ∀ j, j < f.kl → g j = evenOf s (regNumber f x n) j
  | .rm (.mem a) => ∃ la, OperandAt s f pre (dispScale f) (8 * f.kl) len a la ∧
      ∀ j, j < f.kl → g j = dwordAt s.mem (la.toNat + 8 * j)
  | .bcst a => ∃ la, OperandAt s f pre 8 8 len a la ∧ ∀ j, j < f.kl → g j = dwordAt s.mem la.toNat

/-- What result element `j` is under a writemask (R90, R92, R98, R99), `p` being the exact product: the product where
there is no writemask or the mask bit is 1, else the old element (merging) or zero (zeroing). -/
def ElementIs (s : State) (mk : Masking) (d : VecNum) (j : Nat) (p : Int) (q : Qword) : Prop :=
  match mk with
  | .none => q.toInt = p
  | .merge k => if (readK s k).getLsbD j then q.toInt = p else q = laneOf s d j
  | .zero k => if (readK s k).getLsbD j then q.toInt = p else q = 0#64

/-- Bit `i` of `V[n]`. -/
def bitOf (s : State) (n : VecNum) (i : Nat) : Bool := (vecBits (readV s n)).getLsbD i

/-- The memory operand of an instruction, if it has one: the address, the scale of its 8-bit displacement (R56) and the
number of bytes read (R27). -/
def memOperand (i : Instr) : Option (Addr × Nat × Nat) :=
  match i with
  | .pmuldq _ _ _ (.mem a) => some (a, 1, 16)
  | .vpmuldqVex128 _ _ _ _ (.mem a) => some (a, 1, 16)
  | .vpmuldqVex256 _ _ _ _ (.mem a) => some (a, 1, 32)
  | .vpmuldqEvex128 _ _ _ _ (.rm (.mem a)) => some (a, 16, 16)
  | .vpmuldqEvex256 _ _ _ _ (.rm (.mem a)) => some (a, 32, 32)
  | .vpmuldqEvex512 _ _ _ _ (.rm (.mem a)) => some (a, 64, 64)
  | .vpmuldqEvex128 _ _ _ _ (.bcst a) => some (a, 8, 8)
  | .vpmuldqEvex256 _ _ _ _ (.bcst a) => some (a, 8, 8)
  | .vpmuldqEvex512 _ _ _ _ (.bcst a) => some (a, 8, 8)
  | .pmuldq _ _ _ (.reg _ _) => none
  | .vpmuldqVex128 _ _ _ _ (.reg _ _) => none
  | .vpmuldqVex256 _ _ _ _ (.reg _ _) => none
  | .vpmuldqEvex128 _ _ _ _ (.rm (.reg _ _)) => none
  | .vpmuldqEvex256 _ _ _ _ (.rm (.reg _ _)) => none
  | .vpmuldqEvex512 _ _ _ _ (.rm (.reg _ _)) => none

/-- The memory operand of `i` lies at linear address `la` and is `bytes` bytes wide; for F-SSE `la` is a multiple of 16. -/
def HasOperandAt (s : State) (i : Instr) (la : Qword) (bytes : Nat) : Prop :=
  ∃ a n, memOperand i = some (a, n, bytes) ∧ linearAddress s i.prefixes n i.length a = some la ∧
    (i.form = .sse → la.toNat % 16 = 0)

/-- An instruction's encoding is EVEX (R49). -/
def isEvex : Form → Bool
  | .sse => false
  | .vex128 => false
  | .vex256 => false
  | .evex128 => true
  | .evex256 => true
  | .evex512 => true

/-- The frame of R24: everything but `V[d]` and the instruction pointer is unchanged, and the instruction pointer moves
past the `len` bytes of the instruction. -/
def FrameExcept (d : VecNum) (len : Nat) (s t : State) : Prop :=
  (∀ n : VecNum, n ≠ d → t.v[n.toNat] = s.v[n.toNat]) ∧
  t.k = s.k ∧ t.gpr = s.gpr ∧ t.rflags = s.rflags ∧ t.mxcsr = s.mxcsr ∧
  t.cr0 = s.cr0 ∧ t.cr4 = s.cr4 ∧ t.xcr0 = s.xcr0 ∧
  t.csBase = s.csBase ∧ t.fsBase = s.fsBase ∧ t.gsBase = s.gsBase ∧
  t.cpu = s.cpu ∧ t.mode = s.mode ∧ t.cpl = s.cpl ∧ t.regions = s.regions ∧
  (∀ a, readByte t.mem a = readByte s.mem a) ∧
  (ip t).toNat = (ip s).toNat + len

/-- The bytes of `i` stand in readable memory where the next instruction is fetched. -/
def CodeAt (s : State) (i : Instr) : Prop :=
  ∀ j, (h : j < (encode i).length) →
    ByteReadable s (fetchAddress s + j) ∧ readByte s.mem (fetchAddress s + j) = (encode i)[j]

/-- Every vector register holds nothing above `MAX_VL` (R10). -/
def VectorsFit (s : State) : Prop := ∀ n : Fin 32, s.v[n] = lowLanes s.cpu.maxVL.lanes s.v[n]

/-- The invariant of the state: memory is in canonical form, no vector register holds a bit above `MAX_VL` (R10), the
configuration is admissible (R4), and the instruction pointer is inside the address space of the mode (R16). -/
def State.Inv (s : State) : Prop :=
  Memory.wf s.mem = true ∧ VectorsFit s ∧ s.cpu.admissible = true ∧ s.pc.toNat < s.mode.top

/-- A run of `n` instructions that ends without a fault or a refusal (R133). -/
def RunsTo (n : Nat) (s t : State) : Prop := Host.Core.run Sys2Proof.core n s = .next t

end Sys2Proof.Machine
end

