-- ==== Sys2Proof/Certificates/Slice0/Obligations.lean ====
section
/-! DEFINITION. The statements for the provers. OBLIGATIONS.json gives for each its rule of the spec and its words. -/

open Sys2Proof Sys2Proof.Machine

/-! ### The arithmetic (R70 to R72, R26) -/

/-- R71: `LaneMul` is the exact signed product, in [-2^62 + 2^31, 2^62], both ends reached; its sign; zero; it is
commutative and signed. -/
def Obligations.LaneMulIsExactSignedProduct : Prop :=
  (∀ a b : Dword, (laneMul a b).toInt = a.toInt * b.toInt ∧
    -2 ^ 62 + 2 ^ 31 ≤ (laneMul a b).toInt ∧ (laneMul a b).toInt ≤ 2 ^ 62 ∧
    laneMul a b = laneMul b a ∧ laneMul a 0#32 = 0#64 ∧ laneMul 0#32 b = 0#64 ∧
    (0 ≤ a.toInt ∧ 0 ≤ b.toInt ∨ a.toInt ≤ 0 ∧ b.toInt ≤ 0 → 0 ≤ (laneMul a b).toInt) ∧
    (0 ≤ a.toInt ∧ b.toInt ≤ 0 ∨ a.toInt ≤ 0 ∧ 0 ≤ b.toInt → (laneMul a b).toInt ≤ 0)) ∧
  laneMul 0x80000000#32 0x80000000#32 = 0x4000000000000000#64 ∧
  laneMul 0x80000000#32 0x7FFFFFFF#32 = 0xC000000080000000#64 ∧
  laneMul 0xFFFFFFFF#32 0xFFFFFFFF#32 = 0x0000000000000001#64

/-- R72: element `j` of `PackedMul(64 * kl, x, y)` is `LaneMul` of the even doublewords `2j` of the sources, element by
element; the odd doublewords have no influence on any bit. -/
def Obligations.PackedMulMultipliesEvenDoublewords : Prop :=
  ∀ kl, kl = 2 ∨ kl = 4 ∨ kl = 8 → ∀ x y : Vec,
    (∀ j, j < kl → (vecBits (packedMul kl x y)).extractLsb' (64 * j) 64 =
      laneMul ((vecBits x).extractLsb' (64 * j) 32) ((vecBits y).extractLsb' (64 * j) 32)) ∧
    (∀ i, 64 * kl ≤ i → (vecBits (packedMul kl x y)).getLsbD i = false) ∧
    (∀ x' y' : Vec,
      (∀ j, j < kl → (vecBits x').extractLsb' (64 * j) 32 = (vecBits x).extractLsb' (64 * j) 32 ∧
        (vecBits y').extractLsb' (64 * j) 32 = (vecBits y).extractLsb' (64 * j) 32) →
      packedMul kl x' y' = packedMul kl x y)

/-- R26: in the value `MemRead(a, 8 * kl)` the byte at `a + i` is bits `[8i+7:8i]`; doubleword `e` is the four bytes at
`a + 4e`, least significant byte first; reading 8 bytes at `a` gives bits [63:0] of it. -/
def Obligations.MemReadIsLittleEndian : Prop :=
  ∀ (m : Memory) (a kl : Nat), kl = 1 ∨ kl = 2 ∨ kl = 4 ∨ kl = 8 →
    (∀ i, i < 8 * kl → (vecBits (readVec m a kl)).extractLsb' (8 * i) 8 = readByte m (a + i)) ∧
    (∀ e, e < 2 * kl → (vecBits (readVec m a kl)).extractLsb' (32 * e) 32 = dwordAt m (a + 4 * e)) ∧
    readQword m a = (vecBits (readVec m a kl)).extractLsb' 0 64

/-! ### What each form computes, and that it completes (R73, R80, R81, R90 to R97) -/

/-- F-SSE completes whenever it is available, its operand can be read and the next address fits: the two products go to bits
[127:0] of the destination, bits from 128 on stay, and nothing else changes. With a memory operand it rests on the model's
choices of notes/assumptions/6.md (which bytes can be read), 31.md (RIP-relative with a 67 prefix) and 35.md (Mode32 with an
FS or GS base); that the linear address is the one aligned is its reading (12.md). -/
def Obligations.PmuldqCompletesWithProducts : Prop :=
  ∀ (s : State) (pre : List LegacyPrefix) (rex : Option Bool) (d : GprNum) (src : RegMem) (g : Nat → Dword),
    Ready .sse s → NextFits (Instr.pmuldq pre rex d src).length s →
    SourceGives s .sse pre (Instr.pmuldq pre rex d src).length (.rm src) g →
    ∃ t, exec (.pmuldq pre rex d src) s = .next t ∧
      FrameExcept (d.setWidth 5) (Instr.pmuldq pre rex d src).length s t ∧
      (∀ j, j < 2 → (laneOf t (d.setWidth 5) j).toInt = (evenOf s (d.setWidth 5) j).toInt * (g j).toInt) ∧
      (∀ i, 128 ≤ i → bitOf t (d.setWidth 5) i = bitOf s (d.setWidth 5) i)

/-- F-VEX128 completes: the two products, and zero from bit 128 on. With a memory operand it rests on the model's choices of
notes/assumptions/6.md (which bytes can be read), 31.md (RIP-relative with a 67 prefix) and 35.md (Mode32 with an FS or GS
base). -/
def Obligations.VpmuldqVex128CompletesWithProducts : Prop :=
  ∀ (s : State) (pre : List LegacyPrefix) (w : Bool) (d a : GprNum) (src : RegMem) (g : Nat → Dword),
    Ready .vex128 s → NextFits (Instr.vpmuldqVex128 pre w d a src).length s →
    SourceGives s .vex128 pre (Instr.vpmuldqVex128 pre w d a src).length (.rm src) g →
    ∃ t, exec (.vpmuldqVex128 pre w d a src) s = .next t ∧
      FrameExcept (d.setWidth 5) (Instr.vpmuldqVex128 pre w d a src).length s t ∧
      (∀ j, j < 2 → (laneOf t (d.setWidth 5) j).toInt = (evenOf s (a.setWidth 5) j).toInt * (g j).toInt) ∧
      (∀ i, 128 ≤ i → bitOf t (d.setWidth 5) i = false)

/-- F-VEX256 completes on an admissible configuration (R4): the four products, and zero from bit 256 on. With a memory
operand it rests on the model's choices of notes/assumptions/6.md (which bytes can be read), 31.md (RIP-relative with a 67
prefix) and 35.md (Mode32 with an FS or GS base). -/
def Obligations.VpmuldqVex256CompletesWithProducts : Prop :=
  ∀ (s : State) (pre : List LegacyPrefix) (w : Bool) (d a : GprNum) (src : RegMem) (g : Nat → Dword),
    s.cpu.admissible = true → Ready .vex256 s → NextFits (Instr.vpmuldqVex256 pre w d a src).length s →
    SourceGives s .vex256 pre (Instr.vpmuldqVex256 pre w d a src).length (.rm src) g →
    ∃ t, exec (.vpmuldqVex256 pre w d a src) s = .next t ∧
      FrameExcept (d.setWidth 5) (Instr.vpmuldqVex256 pre w d a src).length s t ∧
      (∀ j, j < 4 → (laneOf t (d.setWidth 5) j).toInt = (evenOf s (a.setWidth 5) j).toInt * (g j).toInt) ∧
      (∀ i, 256 ≤ i → bitOf t (d.setWidth 5) i = false)

/-- F-EVEX128 completes: each element as the writemask says, and zero from bit 128 on. With a memory operand it rests on the
model's choices of notes/assumptions/6.md (which bytes can be read), 31.md (RIP-relative with a 67 prefix) and 35.md (Mode32
with an FS or GS base). -/
def Obligations.VpmuldqEvex128CompletesUnderMask : Prop :=
  ∀ (s : State) (pre : List LegacyPrefix) (d a : VecNum) (mk : Masking) (src : EvexSrc) (g : Nat → Dword),
    Ready .evex128 s → NextFits (Instr.vpmuldqEvex128 pre d a mk src).length s →
    SourceGives s .evex128 pre (Instr.vpmuldqEvex128 pre d a mk src).length src g →
    ∃ t, exec (.vpmuldqEvex128 pre d a mk src) s = .next t ∧
      FrameExcept d (Instr.vpmuldqEvex128 pre d a mk src).length s t ∧
      (∀ j, j < 2 → ElementIs s mk d j ((evenOf s a j).toInt * (g j).toInt) (laneOf t d j)) ∧
      (∀ i, 128 ≤ i → bitOf t d i = false)

/-- F-EVEX256 completes on an admissible configuration (R4): each element as the writemask says, and zero from bit 256 on.
With a memory operand it rests on the model's choices of notes/assumptions/6.md (which bytes can be read), 31.md
(RIP-relative with a 67 prefix) and 35.md (Mode32 with an FS or GS base). -/
def Obligations.VpmuldqEvex256CompletesUnderMask : Prop :=
  ∀ (s : State) (pre : List LegacyPrefix) (d a : VecNum) (mk : Masking) (src : EvexSrc) (g : Nat → Dword),
    s.cpu.admissible = true → Ready .evex256 s → NextFits (Instr.vpmuldqEvex256 pre d a mk src).length s →
    SourceGives s .evex256 pre (Instr.vpmuldqEvex256 pre d a mk src).length src g →
    ∃ t, exec (.vpmuldqEvex256 pre d a mk src) s = .next t ∧
      FrameExcept d (Instr.vpmuldqEvex256 pre d a mk src).length s t ∧
      (∀ j, j < 4 → ElementIs s mk d j ((evenOf s a j).toInt * (g j).toInt) (laneOf t d j)) ∧
      (∀ i, 256 ≤ i → bitOf t d i = false)

/-- F-EVEX512 completes on an admissible configuration (R4): each of the eight elements as the writemask says. With a memory
operand it rests on the model's choices of notes/assumptions/6.md (which bytes can be read), 31.md (RIP-relative with a 67
prefix) and 35.md (Mode32 with an FS or GS base). -/
def Obligations.VpmuldqEvex512CompletesUnderMask : Prop :=
  ∀ (s : State) (pre : List LegacyPrefix) (d a : VecNum) (mk : Masking) (src : EvexSrc) (g : Nat → Dword),
    s.cpu.admissible = true → Ready .evex512 s → NextFits (Instr.vpmuldqEvex512 pre d a mk src).length s →
    SourceGives s .evex512 pre (Instr.vpmuldqEvex512 pre d a mk src).length src g →
    ∃ t, exec (.vpmuldqEvex512 pre d a mk src) s = .next t ∧
      FrameExcept d (Instr.vpmuldqEvex512 pre d a mk src).length s t ∧
      (∀ j, j < 8 → ElementIs s mk d j ((evenOf s a j).toInt * (g j).toInt) (laneOf t d j))

/-- R74: F-SSE leaves bits `[MAX_VL-1:128]` of the destination as they were, whatever they were. -/
def Obligations.PmuldqKeepsUpperBits : Prop :=
  ∀ (s t : State) (pre : List LegacyPrefix) (rex : Option Bool) (d : GprNum) (src : RegMem),
    exec (.pmuldq pre rex d src) s = .next t →
      (∀ i, 128 ≤ i → bitOf t (d.setWidth 5) i = bitOf s (d.setWidth 5) i) ∧
      (s.cpu.maxVL = .vl128 → ∀ i, 128 ≤ i → bitOf t (d.setWidth 5) i = false)

/-- R75: `PMULDQ xmmD, xmmD` gives the signed squares of the old even doublewords, never negative, at most 2^62. -/
def Obligations.PmuldqSameRegisterSquares : Prop :=
  ∀ (s : State) (pre : List LegacyPrefix) (rex : Option Bool) (d : GprNum) (x : Bool),
    Ready .sse s → NextFits (Instr.pmuldq pre rex d (.reg x d)).length s →
    ∃ t, exec (.pmuldq pre rex d (.reg x d)) s = .next t ∧
      ∀ j, j < 2 →
        laneOf t (d.setWidth 5) j = laneMul (evenOf s (d.setWidth 5) j) (evenOf s (d.setWidth 5) j) ∧
        (laneOf t (d.setWidth 5) j).toInt = (evenOf s (d.setWidth 5) j).toInt ^ 2 ∧
        0 ≤ (laneOf t (d.setWidth 5) j).toInt ∧ (laneOf t (d.setWidth 5) j).toInt ≤ 2 ^ 62

/-- R83: F-SSE and F-VEX128 on the same destination, first source and second source write the same bits [127:0]; F-SSE keeps
the bits above, F-VEX128 zeroes them; a misaligned memory operand stops F-SSE with #GP(0) and not F-VEX128. That the linear
address is the one tested, and before a device byte is refused, is the model's reading (notes/assumptions/12.md, 7.md). -/
def Obligations.PmuldqAgreesWithVex128 : Prop :=
  ∀ (s : State) (pre pre' : List LegacyPrefix) (rex : Option Bool) (w : Bool) (d : GprNum) (src : RegMem)
    (g : Nat → Dword),
    Ready .sse s → Ready .vex128 s →
    NextFits (Instr.pmuldq pre rex d src).length s → NextFits (Instr.vpmuldqVex128 pre' w d d src).length s →
    SourceGives s .vex128 pre' (Instr.vpmuldqVex128 pre' w d d src).length (.rm src) g →
    (SourceGives s .sse pre (Instr.pmuldq pre rex d src).length (.rm src) g →
      ∃ t t', exec (.pmuldq pre rex d src) s = .next t ∧ exec (.vpmuldqVex128 pre' w d d src) s = .next t' ∧
        (∀ i, i < 128 → bitOf t (d.setWidth 5) i = bitOf t' (d.setWidth 5) i) ∧
        (∀ i, 128 ≤ i → bitOf t (d.setWidth 5) i = bitOf s (d.setWidth 5) i) ∧
        (∀ i, 128 ≤ i → bitOf t' (d.setWidth 5) i = false)) ∧
    (∀ a la, src = .mem a → linearAddress s pre 1 (Instr.pmuldq pre rex d src).length a = some la →
      la.toNat % 16 ≠ 0 →
      exec (.pmuldq pre rex d src) s = .fault (.gp0 (ip s)) ∧
        ∃ t', exec (.vpmuldqVex128 pre' w d d src) s = .next t')

/-! ### Writemasking and broadcast (R92 to R94, R98 to R100) -/

/-- R94: every EVEX form zeroes the destination's bits from VL on, whatever the mask; with merging and an all-zero mask it
keeps bits `[VL-1:0]` as they were. -/
def Obligations.EvexZeroesBitsAboveVl : Prop :=
  ∀ (s t : State) (pre : List LegacyPrefix) (d a : VecNum) (mk : Masking) (src : EvexSrc) (i : Instr),
    i = .vpmuldqEvex128 pre d a mk src ∨ i = .vpmuldqEvex256 pre d a mk src ∨ i = .vpmuldqEvex512 pre d a mk src →
    exec i s = .next t →
      (∀ b, i.form.vl ≤ b → bitOf t d b = false) ∧
      (∀ k, mk = .merge k → (∀ j, j < i.form.kl → (readK s k).getLsbD j = false) →
        ∀ b, b < i.form.vl → bitOf t d b = bitOf s d b)

/-- R99: under zeroing-masking an element whose mask bit is 0 becomes zero; the old destination has no influence on the
result (unless it is also a source); with an all-zero mask the whole destination becomes zero. -/
def Obligations.ZeroingMaskIgnoresOldDestination : Prop :=
  ∀ (s t : State) (pre : List LegacyPrefix) (d a : VecNum) (k : BitVec 3) (src : EvexSrc) (i : Instr),
    i = .vpmuldqEvex128 pre d a (.zero k) src ∨ i = .vpmuldqEvex256 pre d a (.zero k) src ∨
      i = .vpmuldqEvex512 pre d a (.zero k) src →
    exec i s = .next t →
      (∀ j, j < i.form.kl → (readK s k).getLsbD j = false → laneOf t d j = 0#64) ∧
      ((∀ j, j < i.form.kl → (readK s k).getLsbD j = false) → ∀ b, bitOf t d b = false) ∧
      (∀ x : Vec, d ≠ a → (∀ e n, src = .rm (.reg e n) → ext5 e n ≠ d) →
        ∃ t', exec i { s with v := s.v.set d.toNat x } = .next t' ∧ readV t' d = readV t d)

/-- R92: the bits of the mask register from KL on have no effect on the outcome, and the mask register is not changed. -/
def Obligations.MaskBitsAboveKlAreIgnored : Prop :=
  ∀ (s t : State) (pre : List LegacyPrefix) (d a : VecNum) (mk : Masking) (k : BitVec 3) (src : EvexSrc) (i : Instr)
    (q : Qword),
    i = .vpmuldqEvex128 pre d a mk src ∨ i = .vpmuldqEvex256 pre d a mk src ∨ i = .vpmuldqEvex512 pre d a mk src →
    (mk = .merge k ∨ mk = .zero k) → (∀ j, j < i.form.kl → q.getLsbD j = (readK s k).getLsbD j) →
    exec i s = .next t →
      readK t k = readK s k ∧
      exec i { s with k := s.k.set k.toNat q } = .next { t with k := s.k.set k.toNat q }

/-- R100: a mask register with bits `[KL-1:0]` all set gives the same outcome as no writemask, whatever it is. -/
def Obligations.FullMaskEqualsNoMask : Prop :=
  ∀ (s : State) (pre : List LegacyPrefix) (d a : VecNum) (k : BitVec 3) (src : EvexSrc) (mk : Masking),
    (mk = .merge k ∨ mk = .zero k) →
    ((∀ j, j < 2 → (readK s k).getLsbD j = true) →
      exec (.vpmuldqEvex128 pre d a mk src) s = exec (.vpmuldqEvex128 pre d a .none src) s) ∧
    ((∀ j, j < 4 → (readK s k).getLsbD j = true) →
      exec (.vpmuldqEvex256 pre d a mk src) s = exec (.vpmuldqEvex256 pre d a .none src) s) ∧
    ((∀ j, j < 8 → (readK s k).getLsbD j = true) →
      exec (.vpmuldqEvex512 pre d a mk src) s = exec (.vpmuldqEvex512 pre d a .none src) s)

/-- R100: without a writemask an EVEX form of 128 or 256 bits leaves the vector registers as the VEX form with the same
operands does. With a memory operand it rests on the model's choices of notes/assumptions/6.md (which bytes can be read),
31.md (RIP-relative with a 67 prefix) and 35.md (Mode32 with an FS or GS base). -/
def Obligations.UnmaskedEvexEqualsVex : Prop :=
  ∀ (s : State) (pre pre' : List LegacyPrefix) (w : Bool) (d a : GprNum) (src : RegMem) (src' : EvexSrc)
    (g : Nat → Dword) (i i' : Instr),
    (i = .vpmuldqVex128 pre w d a src ∧ i' = .vpmuldqEvex128 pre' (d.setWidth 5) (a.setWidth 5) .none src' ∨
      i = .vpmuldqVex256 pre w d a src ∧ i' = .vpmuldqEvex256 pre' (d.setWidth 5) (a.setWidth 5) .none src') →
    Ready i.form s → Ready i'.form s → NextFits i.length s → NextFits i'.length s →
    SourceGives s i.form pre i.length (.rm src) g → SourceGives s i'.form pre' i'.length src' g →
    ∃ t t', exec i s = .next t ∧ exec i' s = .next t' ∧ t.v = t'.v

/-- With broadcast every computed element is the product with the one low doubleword at the operand's address, and the four
bytes after it have no influence on the result (R93). They are read: where one of them cannot be read the form raises #PF,
whatever the mask (R30, R34; the model's reading of the checks: notes/assumptions/10.md, 7.md for a device byte beside it,
and 9.md for an instruction whose next address is the top). -/
def Obligations.BroadcastUsesLowDoublewordOnly : Prop :=
  ∀ (s t : State) (pre : List LegacyPrefix) (d a : VecNum) (mk : Masking) (ad : Addr) (i : Instr) (la : Qword),
    i = .vpmuldqEvex128 pre d a mk (.bcst ad) ∨ i = .vpmuldqEvex256 pre d a mk (.bcst ad) ∨
      i = .vpmuldqEvex512 pre d a mk (.bcst ad) →
    linearAddress s pre 8 i.length ad = some la → s.cpu.admissible = true →
    (exec i s = .next t →
      (∀ j, j < i.form.kl → elementActive s mk j = true →
        laneOf t d j = laneMul (evenOf s a j) (dwordAt s.mem la.toNat)) ∧
      (∀ m' : Memory, (∀ o, o < 4 → readByte m' (la.toNat + o) = readByte s.mem (la.toNat + o)) →
        exec i { s with mem := m' } = .next { t with mem := m' })) ∧
    (Ready i.form s → (∀ o, o < 8 → legalAddr s.mode (la.toNat + o) = true) →
      (∃ o, 4 ≤ o ∧ o < 8 ∧ pageAnswer s (la.toNat + o) = .notReadable) →
      exec i s = .fault (.pf (ip s)))

/-- R72: two states that differ only in odd doublewords of the vector registers give, for F-SSE and the VEX forms, the
same result element by element. -/
def Obligations.OddDoublewordsHaveNoInfluence : Prop :=
  ∀ (s s' t : State) (i : Instr), isEvex i.form = false →
    s' = { s with v := s'.v } →
    (∀ (n : VecNum) (j : Nat), j < 8 → evenOf s' n j = evenOf s n j) →
    exec i s = .next t →
    ∃ t', exec i s' = .next t' ∧ ip t' = ip t ∧ ∀ j, j < i.form.kl → laneOf t' i.dest j = laneOf t i.dest j

/-! ### Exceptions and refusals (R16, R28 to R34, R110 to R118) -/

/-- R110 to R112: #UD is raised exactly when a feature flag of the form is absent, or the operating system has not enabled
the form, or a VEX or EVEX form stands in real-address or virtual-8086 mode. That for F-SSE in real-address and virtual-8086
mode they come before the refusal of D20 is the model's choice (notes/assumptions/4.md), and so is that for every form they
come before the refusal of 16-bit addressing (37.md) and of a next address at the top (9.md). The bits behind the checks:
14.md. -/
def Obligations.UdExactlyWhenUnavailable : Prop :=
  ∀ (i : Instr) (s : State),
    exec i s = .fault (.ud (ip s)) ↔
      featurePresent i.form s.cpu.feat = false ∨ osEnabled i.form s = false ∨
        (s.mode.inSpec = false ∧ i.form ≠ .sse)

/-- R19: which bits of CR0, CR4 and XCR0 enable each form, and that CR0.TS is bit 3. -/
def Obligations.EnablingBits : Prop :=
  ∀ s : State,
    (osEnabled .sse s = true ↔ s.cr0.getLsbD 2 = false ∧ s.cr4.getLsbD 9 = true) ∧
    (∀ f, f = .vex128 ∨ f = .vex256 →
      (osEnabled f s = true ↔ s.cr4.getLsbD 18 = true ∧ s.xcr0.getLsbD 1 = true ∧ s.xcr0.getLsbD 2 = true)) ∧
    (∀ f, isEvex f = true →
      (osEnabled f s = true ↔ s.cr4.getLsbD 18 = true ∧ s.xcr0.getLsbD 1 = true ∧ s.xcr0.getLsbD 2 = true ∧
        s.xcr0.getLsbD 5 = true ∧ s.xcr0.getLsbD 6 = true ∧ s.xcr0.getLsbD 7 = true)) ∧
    (taskSwitched s = true ↔ s.cr0.getLsbD 3 = true)

/-- R110, R111, R113: #NM, which has no error code, is raised exactly when the #UD checks pass and CR0.TS is 1. That F-SSE
raises it in real-address and virtual-8086 mode, where D20 refuses, is the model's choice (notes/assumptions/4.md), since no
rule orders the two, and so is that it comes before the refusal of 16-bit addressing (37.md) and of a next address at the
top (9.md). -/
def Obligations.NmExactlyWhenTaskSwitched : Prop :=
  (∀ (i : Instr) (s : State),
    exec i s = .fault (.nm (ip s)) ↔
      featurePresent i.form s.cpu.feat = true ∧ osEnabled i.form s = true ∧
        (s.mode.inSpec = true ∨ i.form = .sse) ∧ taskSwitched s = true) ∧
  ∀ a : Qword, Fault.errorCode (.nm a) = none

/-- R115: the vector numbers (17 and 19 are no fault's); every fault of a step carries the address of the faulting
instruction. -/
def Obligations.FaultVectorsAndAddress : Prop :=
  (∀ a : Qword, Fault.vector (.ud a) = 6 ∧ Fault.vector (.nm a) = 7 ∧ Fault.vector (.ss0 a) = 12 ∧
    Fault.vector (.gp0 a) = 13 ∧ Fault.vector (.pf a) = 14) ∧
  (∀ f : Fault, Fault.vector f ≠ 17 ∧ Fault.vector f ≠ 19) ∧
  (∀ (s : State) (f : Fault), step s = .fault f → Fault.ip f = ip s)

/-- R28: an available F-SSE form whose memory operand is not on a 16-byte boundary raises #GP(0), whatever `Access` says of
the operand. That this comes before the refusal of a device byte (R32) is the model's order (DEDUCED,
notes/assumptions/7.md), that the linear address is the one tested its reading (12.md), and that it comes before the refusal
of a next address at the top its choice (9.md). -/
def Obligations.MisalignedPmuldqRaisesGp : Prop :=
  ∀ (s : State) (pre : List LegacyPrefix) (rex : Option Bool) (d : GprNum) (a : Addr) (la : Qword),
    Ready .sse s → linearAddress s pre 1 (Instr.pmuldq pre rex d (.mem a)).length a = some la →
    la.toNat % 16 ≠ 0 → exec (.pmuldq pre rex d (.mem a)) s = .fault (.gp0 (ip s))

/-- R34, R57, R117: an operand with a byte at an illegal address raises #SS(0) where the access uses the stack segment and
#GP(0) otherwise, whatever its pages. That r12 and r13 as base select the stack segment is the model's reading of R57 over
R34 (notes/assumptions/11.md), and that an operand past the top of the address space is illegal is its reading too (8.md,
35.md). That it comes before the refusal of a device byte (R32) in the same operand is the model's order (DEDUCED, 7.md),
and so is that it comes before the refusal of a next address at the top (9.md). The aligned address of F-SSE: 12.md. -/
def Obligations.IllegalOperandAddressFaults : Prop :=
  ∀ (s : State) (i : Instr) (a : Addr) (n bytes : Nat) (la : Qword),
    Ready i.form s → memOperand i = some (a, n, bytes) →
    linearAddress s i.prefixes n i.length a = some la → (i.form = .sse → la.toNat % 16 = 0) →
    (∃ o, o < bytes ∧ legalAddr s.mode (la.toNat + o) = false) →
    exec i s = .fault (if usesStack i.prefixes a then .ss0 (ip s) else .gp0 (ip s))

/-- R27, R30, R34: an operand at legal addresses with any byte that cannot be read raises #PF, whatever the mask and whether
or not that byte's doubleword is used. That masked-off bytes count is the spec's decision D7 (notes/assumptions/10.md). That
#PF comes before the refusal of a device byte (R32) in the same operand is the model's order (DEDUCED, 7.md), and so is that
it comes before the refusal of a next address at the top (9.md). The aligned address of F-SSE: 12.md; which bytes can be
read: 6.md. -/
def Obligations.UnreadableOperandByteRaisesPf : Prop :=
  ∀ (s : State) (i : Instr) (bytes : Nat) (la : Qword),
    Ready i.form s → HasOperandAt s i la bytes →
    (∀ o, o < bytes → legalAddr s.mode (la.toNat + o) = true) →
    (∃ o, o < bytes ∧ pageAnswer s (la.toNat + o) = .notReadable) →
    exec i s = .fault (.pf (ip s))

/-- R32: an operand that can be read but touches a device region is refused. That the refusal stands after the exceptions of
the operand and before that of a next address at the top is the model's order (DEDUCED, notes/assumptions/7.md, 9.md);
masked-off bytes count (10.md); the aligned address of F-SSE: 12.md; what is a device region: 6.md. -/
def Obligations.DeviceOperandIsRefused : Prop :=
  ∀ (s : State) (i : Instr) (bytes : Nat) (la : Qword),
    Ready i.form s → HasOperandAt s i la bytes →
    (∀ o, o < bytes → legalAddr s.mode (la.toNat + o) = true ∧ pageAnswer s (la.toNat + o) ≠ .notReadable) →
    (∃ o, o < bytes ∧ pageAnswer s (la.toNat + o) = .device) →
    exec i s = .refused .deviceMemory

/-- R60, D20: an available form is refused under 16-bit addressing, and F-SSE in real-address and virtual-8086 mode. Where
these refusals stand among the exceptions and the other refusals is the model's choice (notes/assumptions/37.md, 4.md,
9.md). -/
def Obligations.SixteenBitAddressingAndOldModesRefused : Prop :=
  (∀ (s : State) (i : Instr) (md : BitVec 2) (rm : BitVec 3) (n bytes : Nat),
    Ready i.form s → memOperand i = some (.addr16 md rm, n, bytes) → exec i s = .refused .addressing16) ∧
  (∀ (s : State) (i : Instr), i.form = .sse → s.mode.inSpec = false →
    featurePresent .sse s.cpu.feat = true → osEnabled .sse s = true → taskSwitched s = false →
    exec i s = .refused .modeOutsideSpec)

/-- R116: a register-register form whose availability checks pass raises no exception; it completes if the next address
fits and is refused otherwise. That refusal is the model's reading of R16 and D12 (DEDUCED, notes/assumptions/9.md): where the
next address is the top itself the code is wholly inside the address space, and neither says that it is refused. -/
def Obligations.RegisterFormsNeverFault : Prop :=
  ∀ (s : State) (i : Instr), Ready i.form s → memOperand i = none →
    (∀ f, exec i s ≠ .fault f) ∧
    (NextFits i.length s → ∃ t, exec i s = .next t) ∧
    (¬ NextFits i.length s → exec i s = .refused .pcWrap)

/-- R27, R116: an available form with a memory operand completes exactly when every byte it reads can be read (for F-SSE at
a multiple of 16) and the next address fits. That masked-off bytes count follows R30 and D7 (notes/assumptions/10.md, known
to differ from the hardware), and that an instruction whose next address is the top stops is the reading of R16 in 9.md.
That an operand running past the top does not complete is the model's reading (8.md), that in Mode32 with an FS or GS base
only the linear address counts its choice (35.md); the linear address is the one aligned (12.md); what can be read: 6.md. -/
def Obligations.MemoryFormsCompleteExactlyWhenReadable : Prop :=
  ∀ (s : State) (i : Instr) (a : Addr) (n bytes : Nat) (la : Qword),
    Ready i.form s → memOperand i = some (a, n, bytes) → linearAddress s i.prefixes n i.length a = some la →
    ((∃ t, exec i s = .next t) ↔
      (i.form = .sse → la.toNat % 16 = 0) ∧ BytesReadable s la.toNat bytes ∧ NextFits i.length s)

/-- R123: the forms are not privileged: a register-register form does the same at every privilege level. -/
def Obligations.RegisterFormsIgnorePrivilegeLevel : Prop :=
  ∀ (s t : State) (i : Instr) (c : BitVec 2), memOperand i = none →
    (exec i s = .next t → exec i { s with cpl := c } = .next { t with cpl := c }) ∧
    (∀ f, exec i s = .fault f → exec i { s with cpl := c } = .fault f)

/-! ### Effective addresses (R56 to R60) -/

/-- R57, R58: the address table of 64-bit addressing. -/
def Obligations.AddressTableIn64BitMode : Prop :=
  ∀ (s : State) (pre : List LegacyPrefix) (n len : Nat), s.mode = .mode64 → pre.contains .addrSize = false →
    (∀ x b disp, effectiveAddress s pre n len (.base x b disp) = some (s.gpr[b.toNat] + dispValue n disp)) ∧
    (∀ sc b disp, effectiveAddress s pre n len (.sib sc none b disp) = some (s.gpr[b.toNat] + dispValue n disp)) ∧
    (∀ sc i b disp, effectiveAddress s pre n len (.sib sc (some i) b disp) =
      some (s.gpr[b.toNat] + s.gpr[i.toNat] * BitVec.ofNat 64 (2 ^ sc.toNat) + dispValue n disp)) ∧
    (∀ b sc d, effectiveAddress s pre n len (.sibNoBase b sc none d) = some (d.signExtend 64)) ∧
    (∀ b sc i d, effectiveAddress s pre n len (.sibNoBase b sc (some i) d) =
      some (d.signExtend 64 + s.gpr[i.toNat] * BitVec.ofNat 64 (2 ^ sc.toNat))) ∧
    (∀ x b d, effectiveAddress s pre n len (.disp32 x b d) =
      some (s.pc + BitVec.ofNat 64 len + d.signExtend 64))

/-- R57, R58, R60: with a `67` prefix in Mode64, and in Mode32 without one, every effective address is the sum of its parts
modulo 2^32, so below 2^32; the operand without base and index is relative to the next instruction in Mode64 (truncated like
the others, notes/assumptions/31.md) and absolute in Mode32. -/
def Obligations.AddressesOf32BitAddressing : Prop :=
  ∀ (s : State) (pre : List LegacyPrefix) (n len : Nat),
    (s.mode = .mode64 ∧ pre.contains .addrSize = true ∨ s.mode = .mode32 ∧ pre.contains .addrSize = false) →
    (∀ ad ea, effectiveAddress s pre n len ad = some ea → ea.toNat < 2 ^ 32) ∧
    (∀ x b disp, effectiveAddress s pre n len (.base x b disp) =
      some (((s.gpr[b.toNat]).setWidth 32 + (dispValue n disp).setWidth 32).setWidth 64)) ∧
    (∀ sc b disp, effectiveAddress s pre n len (.sib sc none b disp) =
      some (((s.gpr[b.toNat]).setWidth 32 + (dispValue n disp).setWidth 32).setWidth 64)) ∧
    (∀ sc i b disp, effectiveAddress s pre n len (.sib sc (some i) b disp) =
      some (((s.gpr[b.toNat]).setWidth 32 + (s.gpr[i.toNat]).setWidth 32 * BitVec.ofNat 32 (2 ^ sc.toNat) +
        (dispValue n disp).setWidth 32).setWidth 64)) ∧
    (∀ b sc d, effectiveAddress s pre n len (.sibNoBase b sc none d) = some (d.setWidth 64)) ∧
    (∀ b sc i d, effectiveAddress s pre n len (.sibNoBase b sc (some i) d) =
      some ((d + (s.gpr[i.toNat]).setWidth 32 * BitVec.ofNat 32 (2 ^ sc.toNat)).setWidth 64)) ∧
    (∀ x b d, effectiveAddress s pre n len (.disp32 x b d) =
      some (if s.mode = .mode64 then (s.pc.setWidth 32 + BitVec.ofNat 32 len + d).setWidth 64 else d.setWidth 64))

/-- R56: an 8-bit displacement is scaled by VL/8 in a full-width EVEX operand, by 8 in a broadcast, and not at all in the
other forms; a 32-bit one is never scaled. -/
def Obligations.DisplacementScaling : Prop :=
  (∀ b : Byte, (dispValue 1 (.d8 b)).toInt = b.toInt ∧ (dispValue 8 (.d8 b)).toInt = 8 * b.toInt ∧
    (dispValue 16 (.d8 b)).toInt = 16 * b.toInt ∧ (dispValue 32 (.d8 b)).toInt = 32 * b.toInt ∧
    (dispValue 64 (.d8 b)).toInt = 64 * b.toInt) ∧
  (∀ (d : Dword) (n : Nat), (dispValue n (.d32 d)).toInt = d.toInt) ∧
  (∀ (i : Instr) (a : Addr) (n bytes : Nat), memOperand i = some (a, n, bytes) →
    n = if isEvex i.form = true then bytes else 1)

/-- R59, R57, R34: for every prefix list, which segment counts, what it adds to the effective address, and when the access
uses the stack segment. The override that counts is the one all overrides agree on, or one of those present
(notes/assumptions/1.md). FS and GS add their base (notes/assumptions/18.md), the other segments zero; the sum is the linear
address, modulo 2^64 in Mode64 and 2^32 in Mode32 (notes/assumptions/35.md). The stack segment is used with an SS override,
or without any override when the 3-bit field of the base register is 4 or 5, for r12 and r13 too (notes/assumptions/11.md). -/
def Obligations.SegmentOverrides : Prop :=
  (LegacyPrefix.seg .cs = some .cs ∧ LegacyPrefix.seg .ss = some .ss ∧ LegacyPrefix.seg .ds = some .ds ∧
    LegacyPrefix.seg .es = some .es ∧ LegacyPrefix.seg .fs = some .fs ∧ LegacyPrefix.seg .gs = some .gs ∧
    LegacyPrefix.seg .lock = none ∧ LegacyPrefix.seg .repne = none ∧ LegacyPrefix.seg .rep = none ∧
    LegacyPrefix.seg .opSize = none ∧ LegacyPrefix.seg .addrSize = none) ∧
  (∀ pre : List LegacyPrefix,
    ((∀ p ∈ pre, p.seg = none) → overrideOf pre = none) ∧
    (∀ g, (∃ p ∈ pre, p.seg = some g) → (∀ p ∈ pre, p.seg = none ∨ p.seg = some g) → overrideOf pre = some g) ∧
    ((∃ p ∈ pre, p.seg ≠ none) → ∃ p ∈ pre, p.seg ≠ none ∧ overrideOf pre = p.seg)) ∧
  (∀ (s : State) (pre : List LegacyPrefix),
    (overrideOf pre = some .fs → segmentBase s pre = s.fsBase) ∧
    (overrideOf pre = some .gs → segmentBase s pre = s.gsBase) ∧
    (overrideOf pre ≠ some .fs → overrideOf pre ≠ some .gs → segmentBase s pre = 0#64)) ∧
  (∀ (s : State) (pre : List LegacyPrefix) (n len : Nat) (ad : Addr),
    (effectiveAddress s pre n len ad = none → linearAddress s pre n len ad = none) ∧
    (∀ ea, effectiveAddress s pre n len ad = some ea →
      (s.mode = .mode64 → linearAddress s pre n len ad = some (segmentBase s pre + ea)) ∧
      (s.mode = .mode32 →
        linearAddress s pre n len ad = some (((segmentBase s pre + ea).setWidth 32).setWidth 64)))) ∧
  (∀ pre : List LegacyPrefix,
    (∀ x b disp, usesStack pre (.base x b disp) = true ↔ overrideOf pre = some .ss ∨
      overrideOf pre = none ∧ (b.extractLsb' 0 3 = 4#3 ∨ b.extractLsb' 0 3 = 5#3)) ∧
    (∀ sc i b disp, usesStack pre (.sib sc i b disp) = true ↔ overrideOf pre = some .ss ∨
      overrideOf pre = none ∧ (b.extractLsb' 0 3 = 4#3 ∨ b.extractLsb' 0 3 = 5#3)) ∧
    (∀ b sc i d, usesStack pre (.sibNoBase b sc i d) = true ↔ overrideOf pre = some .ss) ∧
    (∀ x b d, usesStack pre (.disp32 x b d) = true ↔ overrideOf pre = some .ss))

/-! ### Encoding (R41 to R65) -/

/-- Decoding an encoded well-formed instruction, with any bytes after it, gives it back, in every mode: no bit of an
encoding is dropped. In real-address and virtual-8086 mode it rests on the model's choices of notes/assumptions/4.md; under
16-bit addressing the encoding ends after ModRM (37.md). -/
def Obligations.DecodeOfEncodeIsIdentity : Prop :=
  ∀ (m : Mode) (i : Instr) (rest : List Byte), i.wfFields m = true → decode m (encode i ++ rest) = .ok i rest

/-- Whatever the decoder accepts is the encoding of a well-formed instruction followed by the bytes it leaves. In
real-address and virtual-8086 mode it rests on the model's choices of notes/assumptions/4.md; under 16-bit addressing the
encoding ends after ModRM (37.md). -/
def Obligations.DecodedBytesAreAnEncoding : Prop :=
  ∀ (m : Mode) (bs rest : List Byte) (i : Instr), decode m bs = .ok i rest →
    bs = encode i ++ rest ∧ i.wfFields m = true

/-- R62: `len` is the number of bytes of the encoding; without redundant prefixes F-SSE has 5 to 11 bytes, a VEX form 5 to
10 and an EVEX form 6 to 11. Under 16-bit addressing the displacement is not counted (notes/assumptions/37.md). -/
def Obligations.LengthOfEncodings : Prop :=
  (∀ i : Instr, (encode i).length = i.length) ∧
  (∀ rex d src, 5 ≤ (Instr.pmuldq [.opSize] rex d src).length ∧ (Instr.pmuldq [.opSize] rex d src).length ≤ 11) ∧
  (∀ w d a src, 5 ≤ (Instr.vpmuldqVex128 [] w d a src).length ∧ (Instr.vpmuldqVex128 [] w d a src).length ≤ 10 ∧
    (Instr.vpmuldqVex256 [] w d a src).length = (Instr.vpmuldqVex128 [] w d a src).length) ∧
  (∀ d a mk src, 6 ≤ (Instr.vpmuldqEvex128 [] d a mk src).length ∧ (Instr.vpmuldqEvex128 [] d a mk src).length ≤ 11 ∧
    (Instr.vpmuldqEvex256 [] d a mk src).length = (Instr.vpmuldqEvex128 [] d a mk src).length ∧
    (Instr.vpmuldqEvex512 [] d a mk src).length = (Instr.vpmuldqEvex128 [] d a mk src).length)

/-- A proper initial part of an encoding decodes to "more bytes are needed", so that no encoding is the beginning of
another. In real-address and virtual-8086 mode it rests on the model's choices of notes/assumptions/4.md; under 16-bit
addressing the encoding ends after ModRM (37.md). -/
def Obligations.EncodingsArePrefixFree : Prop :=
  ∀ (m : Mode) (i : Instr) (k : Nat), i.wfFields m = true → k < (encode i).length →
    decode m ((encode i).take k) = .more

/-- Words of the spec's encoding tables decode to the instructions they stand for. -/
def Obligations.SampleWordsDecode : Prop :=
  decode .mode64 [0x66#8, 0x0F#8, 0x38#8, 0x28#8, 0xC1#8] = .ok (.pmuldq [.opSize] none 0 (.reg false 1)) [] ∧
  decode .mode64 [0xC4#8, 0xE2#8, 0x69#8, 0x28#8, 0xCB#8] = .ok (.vpmuldqVex128 [] false 1 2 (.reg false 3)) [] ∧
  decode .mode64 [0xC4#8, 0xE2#8, 0x6D#8, 0x28#8, 0xCB#8] = .ok (.vpmuldqVex256 [] false 1 2 (.reg false 3)) [] ∧
  decode .mode64 [0x62#8, 0xF2#8, 0xED#8, 0x89#8, 0x28#8, 0xCB#8] =
    .ok (.vpmuldqEvex128 [] 1 2 (.zero 1) (.rm (.reg false 3))) [] ∧
  decode .mode64 [0x62#8, 0xA2#8, 0xED#8, 0x40#8, 0x28#8, 0xCB#8] =
    .ok (.vpmuldqEvex512 [] 17 18 .none (.rm (.reg true 3))) []

/-- R11: in Mode32 every register operand of a decoded instruction is one of registers 0 to 7; in Mode64 the destination of
a legacy or VEX form is one of 0 to 15. -/
def Obligations.RegistersNamedPerMode : Prop :=
  ∀ (m : Mode) (bs rest : List Byte) (i : Instr), decode m bs = .ok i rest →
    (m = .mode32 → i.dest.toNat < 8) ∧ (isEvex i.form = false → i.dest.toNat < 16) ∧
    (m = .mode32 → ∀ pre rex d x n, i = .pmuldq pre rex d (.reg x n) → n.toNat < 8) ∧
    (m = .mode32 → ∀ pre w d a src, i = .vpmuldqVex128 pre w d a src ∨ i = .vpmuldqVex256 pre w d a src →
      a.toNat < 8 ∧ ∀ x n, src = .reg x n → n.toNat < 8) ∧
    (m = .mode32 → ∀ pre d a mk src, i = .vpmuldqEvex128 pre d a mk src ∨ i = .vpmuldqEvex256 pre d a mk src ∨
      i = .vpmuldqEvex512 pre d a mk src → a.toNat < 8 ∧ ∀ x n, src = .rm (.reg x n) → (ext5 x n).toNat < 8)

/-- R82: in both VEX forms every value of `VEX.vvvv` is valid in Mode64, with a register and with a memory operand, and names
the first source, and the W bit of the prefix has no effect on the result, the exceptions and the length. -/
def Obligations.VexVvvvNamesFirstSourceAndWIsIgnored : Prop :=
  (∀ (w l : Bool) (v : BitVec 4) (p0 : Byte) (t : List Byte), p0.extractLsb' 0 5 = 2#5 →
    decode .mode64 (0xC4#8 :: p0 :: (BitVec.ofBool w ++ ~~~v ++ BitVec.ofBool l ++ 1#2) :: 0x28#8 :: t) ≠ .more →
    ∃ d src rest,
      decode .mode64 (0xC4#8 :: p0 :: (BitVec.ofBool w ++ ~~~v ++ BitVec.ofBool l ++ 1#2) :: 0x28#8 :: t) =
        .ok (if l then .vpmuldqVex256 [] w d v src else .vpmuldqVex128 [] w d v src) rest) ∧
  (∀ (w w' : Bool) (pre : List LegacyPrefix) (d a : GprNum) (src : RegMem) (s : State),
    exec (.vpmuldqVex128 pre w d a src) s = exec (.vpmuldqVex128 pre w' d a src) s ∧
    exec (.vpmuldqVex256 pre w d a src) s = exec (.vpmuldqVex256 pre w' d a src) s ∧
    (Instr.vpmuldqVex128 pre w d a src).length = (Instr.vpmuldqVex128 pre w' d a src).length ∧
    (Instr.vpmuldqVex256 pre w d a src).length = (Instr.vpmuldqVex256 pre w' d a src).length)

/-- R65: a LOCK prefix makes every form invalid; `66`, `F2`, `F3` or a REX prefix before the VEX or EVEX prefix does. In
real-address and virtual-8086 mode it rests on the model's choices of notes/assumptions/4.md; that an operand under 16-bit
addressing does not refuse first is the choice of 37.md. -/
def Obligations.ForbiddenPrefixesAreInvalid : Prop :=
  (∀ (m : Mode) (i : Instr) (rest : List Byte), i.wfFields m = true → decode m (0xF0#8 :: encode i ++ rest) = .invalid) ∧
  (∀ (m : Mode) (i : Instr) (rest : List Byte) (b : Byte), i.wfFields m = true → i.form ≠ .sse →
    b = 0x66#8 ∨ b = 0xF2#8 ∨ b = 0xF3#8 → decode m (b :: encode i ++ rest) = .invalid) ∧
  (∀ (i : Instr) (rest : List Byte) (c : Byte), i.wfFields .mode64 = true → i.form ≠ .sse → i.prefixes = [] →
    Rex.isRex c = true → decode .mode64 (c :: encode i ++ rest) = .invalid)

/-- R43, R64, R65: bits that are ignored have no effect: the W bit of REX, and on a register form the legacy prefixes (but
for the number of their bytes) and, in the legacy and VEX forms, the X bit. -/
def Obligations.IgnoredBitsHaveNoEffect : Prop :=
  (∀ (s : State) (pre : List LegacyPrefix) (w w' : Bool) (d : GprNum) (src : RegMem),
    exec (.pmuldq pre (some w) d src) s = exec (.pmuldq pre (some w') d src) s) ∧
  (∀ (s : State) (pre pre' : List LegacyPrefix), pre.length = pre'.length →
    (∀ rex d x x' n, exec (.pmuldq pre rex d (.reg x n)) s = exec (.pmuldq pre' rex d (.reg x' n)) s) ∧
    (∀ w d a x x' n,
      exec (.vpmuldqVex128 pre w d a (.reg x n)) s = exec (.vpmuldqVex128 pre' w d a (.reg x' n)) s ∧
      exec (.vpmuldqVex256 pre w d a (.reg x n)) s = exec (.vpmuldqVex256 pre' w d a (.reg x' n)) s) ∧
    (∀ d a mk x n,
      exec (.vpmuldqEvex128 pre d a mk (.rm (.reg x n))) s = exec (.vpmuldqEvex128 pre' d a mk (.rm (.reg x n))) s ∧
      exec (.vpmuldqEvex256 pre d a mk (.rm (.reg x n))) s = exec (.vpmuldqEvex256 pre' d a mk (.rm (.reg x n))) s ∧
      exec (.vpmuldqEvex512 pre d a mk (.rm (.reg x n))) s = exec (.vpmuldqEvex512 pre' d a mk (.rm (.reg x n))) s))

/-- R64: the EVEX bytes of these forms with a register operand are invalid in Mode64 exactly when a reserved field has a
wrong value: P0[3:2] not 00, P1[2] not 1, W = 0, L'L = 11, z = 1 with aaa = 000, or b = 1. -/
def Obligations.EvexFieldValuesThatRaiseUd : Prop :=
  ∀ (p0 p1 p2 mrm : Byte), p0.extractLsb' 0 2 = 2#2 → p1.extractLsb' 0 2 = 1#2 → mrm.extractLsb' 6 2 = 3#2 →
    (decode .mode64 [0x62#8, p0, p1, p2, 0x28#8, mrm] = .invalid ↔
      p0.extractLsb' 2 2 ≠ 0#2 ∨ p1.getLsbD 2 = false ∨ p1.getLsbD 7 = false ∨ p2.extractLsb' 5 2 = 3#2 ∨
        (p2.getLsbD 7 = true ∧ p2.extractLsb' 0 3 = 0#3) ∨ p2.getLsbD 4 = true)

/-! ### Fetching and stepping (R16, R37, R41, R117) -/

/-- When the bytes at the instruction pointer decode to an instruction, the step is that instruction. -/
def Obligations.StepRunsDecodedInstruction : Prop :=
  ∀ (s : State) (i : Instr) (rest : List Byte), decode s.mode (window s).1 = .ok i rest → step s = exec i s

/-- When the encoding of a well-formed instruction stands in readable memory at the instruction pointer, whatever follows
it, the step is that instruction. In real-address and virtual-8086 mode it rests on the model's choices of
notes/assumptions/4.md. -/
def Obligations.StoredInstructionIsRun : Prop :=
  ∀ (s : State) (i : Instr), i.wf s.mode = true → CodeAt s i → step s = exec i s

/-- R41: an instruction longer than 15 bytes raises #GP(0). That no byte after the fifteenth is fetched is the model's
reading (notes/assumptions/17.md). In real-address and virtual-8086 mode it rests on the model's choices of 4.md; under
16-bit addressing the length is that of 37.md. -/
def Obligations.TooLongInstructionRaisesGp : Prop :=
  ∀ (s : State) (i : Instr), i.wfFields s.mode = true → 15 < i.length →
    (∀ j, j < 15 → ByteReadable s (fetchAddress s + j) ∧
      (encode i)[j]? = some (readByte s.mem (fetchAddress s + j))) →
    step s = .fault (.gp0 (ip s))

/-- R37: where the instruction's bytes run into one that cannot be read, at a legal address, the step raises #PF. In
real-address and virtual-8086 mode it rests on the model's choices of notes/assumptions/4.md; which bytes can be read: 6.md. -/
def Obligations.UnreadableCodeByteRaisesPf : Prop :=
  ∀ (s : State) (i : Instr) (k : Nat), i.wf s.mode = true → k < i.length →
    (∀ j, j < k → ByteReadable s (fetchAddress s + j) ∧
      (encode i)[j]? = some (readByte s.mem (fetchAddress s + j))) →
    legalAddr s.mode (fetchAddress s + k) = true → pageAnswer s (fetchAddress s + k) = .notReadable →
    step s = .fault (.pf (ip s))

/-- R65, R112: a form with a LOCK prefix in readable memory at the instruction pointer raises #UD. In real-address and
virtual-8086 mode it rests on the model's choices of notes/assumptions/4.md (#UD before the refusal of D20), and under
16-bit addressing on that of 37.md. -/
def Obligations.LockedInstructionRaisesUd : Prop :=
  ∀ (s : State) (i : Instr), i.wfFields s.mode = true → i.length < 15 →
    (∀ j, j < i.length + 1 → ByteReadable s (fetchAddress s + j) ∧
      (0xF0#8 :: encode i)[j]? = some (readByte s.mem (fetchAddress s + j))) →
    step s = .fault (.ud (ip s))

/-! ### Reset, invariant, frame (R4, R10, R20, R23, R24, R33, R76) -/

/-- R23: the reset values the spec gives; as a consequence no form is enabled, and immediately after reset every form raises
#UD. That F-SSE raises #UD there, where D20 refuses the mode, is the model's choice (notes/assumptions/4.md). -/
def Obligations.ResetValuesAndNoFormEnabled : Prop :=
  State.reset.mode = .realAddress ∧ State.reset.pc = 0xFFF0#64 ∧ State.reset.csBase = 0xFFFF0000#64 ∧
  State.reset.rflags = 2#64 ∧ State.reset.mxcsr = 0x1F80#32 ∧ State.reset.cr0 = 0x60000010#64 ∧
  State.reset.cr4 = 0#64 ∧ State.reset.xcr0 = 1#64 ∧
  (∀ (n : VecNum) (i : Nat), i < 128 → bitOf State.reset n i = false) ∧
  (∀ f, osEnabled f State.reset = false) ∧
  (∀ i, exec i State.reset = .fault (.ud (ip State.reset)))

/-- R20: where CPUID reports the feature flags. -/
def Obligations.FeatureFlagPositions : Prop :=
  ∀ c b : Dword, (Feat.ofCpuid c b).sse41 = c.getLsbD 19 ∧ (Feat.ofCpuid c b).avx = c.getLsbD 28 ∧
    (Feat.ofCpuid c b).avx2 = b.getLsbD 5 ∧ (Feat.ofCpuid c b).avx512f = b.getLsbD 16 ∧
    (Feat.ofCpuid c b).avx512vl = b.getLsbD 31

/-- The invariant holds at reset. It rests on values the model chose (notes/assumptions/2.md, 3.md, 5.md). -/
def Obligations.InvariantHoldsAtReset : Prop := State.reset.Inv

/-- Every step keeps the invariant: canonical memory, no vector bit above MAX_VL, an admissible configuration, the
instruction pointer inside the address space. -/
def Obligations.StepKeepsInvariant : Prop :=
  ∀ s t : State, s.Inv → step s = .next t → t.Inv

/-- The invariant holds after every run from a state that meets it. -/
def Obligations.RunKeepsInvariant : Prop :=
  ∀ (n : Nat) (s t : State), s.Inv → RunsTo n s t → t.Inv

/-- R24: an instruction that completes changes exactly its destination register and the instruction pointer. -/
def Obligations.ExecFrame : Prop :=
  ∀ (s t : State) (i : Instr), exec i s = .next t → FrameExcept i.dest i.length s t

/-- R24, R76: a step that completes changes one vector register at most and moves the instruction pointer on by the length
of an instruction, 5 to 15 bytes; nothing else changes. -/
def Obligations.StepFrame : Prop :=
  ∀ s t : State, step s = .next t → ∃ d len, 5 ≤ len ∧ len ≤ 15 ∧ FrameExcept d len s t

/-- R33: no form writes memory; the list of bytes itself stays as it is. -/
def Obligations.NoStepWritesMemory : Prop :=
  ∀ s t : State, step s = .next t → t.mem = s.mem ∧ t.regions = s.regions

/-- R76, R133: a run of `n` instructions without a fault is a straight line: the instruction pointer rises by 5 to 15 for
each, and masks, general registers, flags, MXCSR, control registers and memory end as they began. -/
def Obligations.RunIsAStraightLine : Prop :=
  ∀ (n : Nat) (s t : State), RunsTo n s t →
    (ip s).toNat + 5 * n ≤ (ip t).toNat ∧ (ip t).toNat ≤ (ip s).toNat + 15 * n ∧
    t.k = s.k ∧ t.gpr = s.gpr ∧ t.rflags = s.rflags ∧ t.mxcsr = s.mxcsr ∧ t.cr0 = s.cr0 ∧ t.cr4 = s.cr4 ∧
    t.xcr0 = s.xcr0 ∧ t.csBase = s.csBase ∧ t.fsBase = s.fsBase ∧ t.gsBase = s.gsBase ∧ t.cpu = s.cpu ∧
    t.mode = s.mode ∧ t.cpl = s.cpl ∧ t.regions = s.regions ∧ t.mem = s.mem

/-- The launch's write of a byte: reading it back gives it, every other byte is unchanged, and the canonical form is kept.
The canonical form is that of notes/assumptions/5.md. -/
def Obligations.MemoryWriteThenRead : Prop :=
  ∀ (m : Memory) (a : Nat) (b : Byte), Memory.wf m = true →
    readByte (writeByte m a b) a = b ∧ (∀ a', a' ≠ a → readByte (writeByte m a b) a' = readByte m a') ∧
    Memory.wf (writeByte m a b) = true
end

