-- ==== Sys2Proof/Laws/Decode.lean ====
section
/-! SUPPORT. The byte of each group of fields and its fields say the same, and the small lemmas of the decoder. -/

namespace Sys2Proof

/-! ### Prefix bytes -/

@[simp] theorem ofByte_byte (p : LegacyPrefix) : LegacyPrefix.ofByte p.byte = some p := by
  cases p <;> decide

theorem byte_ofByte (b : Byte) (p : LegacyPrefix) (h : LegacyPrefix.ofByte b = some p) : p.byte = b := by
  have key : ∀ b : Byte, (LegacyPrefix.ofByte b).all (fun p => p.byte == b) = true := by decide
  have hb := key b
  rw [h] at hb
  simpa using hb

/-- The prefixes of an encoding are read back, if the byte after them is no prefix. -/
theorem splitPrefixes_map_byte (pre : List LegacyPrefix) (bs : List Byte)
    (h : ∀ b t, bs = b :: t → LegacyPrefix.ofByte b = none) :
    splitPrefixes (pre.map LegacyPrefix.byte ++ bs) = (pre, bs) := by
  induction pre with
  | nil =>
    cases bs with
    | nil => rfl
    | cons b t => simp [splitPrefixes, h b t rfl]
  | cons p pre ih => simp [splitPrefixes, ih]

/-- Whatever is split is put together again, and the byte after the prefixes is no prefix. -/
theorem splitPrefixes_sound (bs : List Byte) :
    bs = (splitPrefixes bs).1.map LegacyPrefix.byte ++ (splitPrefixes bs).2 ∧
      ∀ b t, (splitPrefixes bs).2 = b :: t → LegacyPrefix.ofByte b = none := by
  induction bs with
  | nil => exact ⟨rfl, fun b t h => nomatch h⟩
  | cons b bs ih =>
    cases hb : LegacyPrefix.ofByte b with
    | none => simp [splitPrefixes, hb]
    | some p =>
      simp only [splitPrefixes, hb, List.map_cons, List.cons_append, byte_ofByte b p hb]
      exact ⟨by rw [← ih.1], ih.2⟩

/-! ### Fields and bytes -/

theorem modRM_toByte_ofByte : ∀ c : Byte, (ModRM.ofByte c).toByte = c := by decide

@[simp] theorem modRM_ofByte_toByte (md : BitVec 2) (reg rm : BitVec 3) :
    ModRM.ofByte (ModRM.mk md reg rm).toByte = ⟨md, reg, rm⟩ := by
  revert md reg rm; decide

theorem sib_toByte_ofByte : ∀ c : Byte, (Sib.ofByte c).toByte = c := by decide

@[simp] theorem sib_ofByte_toByte (sc : BitVec 2) (ix bs : BitVec 3) :
    Sib.ofByte (Sib.mk sc ix bs).toByte = ⟨sc, ix, bs⟩ := by
  revert sc ix bs; decide

theorem rex_toByte_ofByte : ∀ c : Byte, Rex.isRex c = true → (Rex.ofByte c).toByte = c := by decide

@[simp] theorem rex_ofByte_toByte (w r x b : Bool) : Rex.ofByte (Rex.mk w r x b).toByte = ⟨w, r, x, b⟩ := by
  revert w r x b; decide

@[simp] theorem isRex_toByte (w r x b : Bool) : Rex.isRex (Rex.mk w r x b).toByte = true := by
  revert w r x b; decide

theorem vexP0_toByte_ofByte : ∀ c : Byte, (VexP0.ofByte c).toByte = c := by decide

@[simp] theorem vexP0_ofByte_toByte (r x b : Bool) (mp : BitVec 5) :
    VexP0.ofByte (VexP0.mk r x b mp).toByte = ⟨r, x, b, mp⟩ := by
  revert r x b mp; decide

theorem vexP1_toByte_ofByte : ∀ c : Byte, (VexP1.ofByte c).toByte = c := by decide

@[simp] theorem vexP1_ofByte_toByte (w l : Bool) (v : BitVec 4) (pp : BitVec 2) :
    VexP1.ofByte (VexP1.mk w v l pp).toByte = ⟨w, v, l, pp⟩ := by
  revert w l v pp; decide

theorem evexP0_toByte_ofByte : ∀ c : Byte, (EvexP0.ofByte c).toByte = c := by decide

@[simp] theorem evexP0_ofByte_toByte (r x b r2 : Bool) (rsv mm : BitVec 2) :
    EvexP0.ofByte (EvexP0.mk r x b r2 rsv mm).toByte = ⟨r, x, b, r2, rsv, mm⟩ := by
  revert r x b r2 rsv mm; decide

theorem evexP1_toByte_ofByte : ∀ c : Byte, (EvexP1.ofByte c).toByte = c := by decide

@[simp] theorem evexP1_ofByte_toByte (w one : Bool) (v : BitVec 4) (pp : BitVec 2) :
    EvexP1.ofByte (EvexP1.mk w v one pp).toByte = ⟨w, v, one, pp⟩ := by
  revert w one v pp; decide

theorem evexP2_toByte_ofByte : ∀ c : Byte, (EvexP2.ofByte c).toByte = c := by decide

@[simp] theorem evexP2_ofByte_toByte (z b v2 : Bool) (ll : BitVec 2) (aaa : BitVec 3) :
    EvexP2.ofByte (EvexP2.mk z ll b v2 aaa).toByte = ⟨z, ll, b, v2, aaa⟩ := by
  revert z b v2 ll aaa; decide

/-! ### Register numbers -/

@[simp] theorem ext4_low3 (n : GprNum) : ext4 (bitAt n 3) (low3 n) = n := by revert n; decide

@[simp] theorem low3_ext4 (e : Bool) (n : BitVec 3) : low3 (ext4 e n) = n := by revert e n; decide

@[simp] theorem ext4_bit3 (e : Bool) (n : BitVec 3) : bitAt (ext4 e n) 3 = e := by revert e n; decide

theorem ext5_ext4 (d : VecNum) : ext5 (bitAt d 4) (ext4 (bitAt d 3) (d.extractLsb' 0 3)) = d := by
  revert d; decide

theorem ext5_low4 (d : VecNum) : ext5 (bitAt d 4) (d.extractLsb' 0 4) = d := by revert d; decide

theorem ext5_ext4_fields (e f : Bool) (n : BitVec 3) :
    bitAt (ext5 e (ext4 f n)) 4 = e ∧ bitAt (ext5 e (ext4 f n)) 3 = f ∧
      (ext5 e (ext4 f n)).extractLsb' 0 3 = n := by
  revert e f n; decide

theorem ext5_fields (e : Bool) (n : BitVec 4) :
    bitAt (ext5 e n) 4 = e ∧ (ext5 e n).extractLsb' 0 4 = n := by
  revert e n; decide

/-! ### Displacements -/

@[simp] theorem take32_bytes32 (d : Dword) (t : List Byte) : take32 (bytes32 d ++ t) = some (d, t) := by
  simp only [bytes32, List.cons_append, List.nil_append, take32]
  congr 2
  ext i hi
  simp
  grind

/-- What four displacement bytes were. -/
theorem take32_sound (bs t : List Byte) (d : Dword) (h : take32 bs = some (d, t)) : bs = bytes32 d ++ t := by
  match bs with
  | b0 :: b1 :: b2 :: b3 :: t' =>
    simp only [take32, Option.some.injEq, Prod.mk.injEq] at h
    obtain ⟨rfl, rfl⟩ := h
    simp only [bytes32, List.cons_append, List.nil_append]
    congr 1
    · ext i hi; simp; grind
    congr 1
    · ext i hi; simp; grind
    congr 1
    · ext i hi; simp; grind
    congr 1
    · ext i hi; simp; grind
  | [] => exact nomatch h
  | [_] => exact nomatch h
  | [_, _] => exact nomatch h
  | [_, _, _] => exact nomatch h

/-- The displacement of an encoding is read back. -/
@[simp] theorem takeDisp_bytes (disp : Disp) (t : List Byte) : takeDisp disp.mod (disp.bytes ++ t) = some (disp, t) := by
  cases disp with
  | none => rfl
  | d8 b => rfl
  | d32 d => simp [takeDisp, Disp.mod, Disp.bytes]

/-- What a displacement was; `mod` is not 11. -/
theorem takeDisp_sound (md : BitVec 2) (bs t : List Byte) (disp : Disp) (hm : md ≠ 3#2)
    (h : takeDisp md bs = some (disp, t)) : bs = disp.bytes ++ t ∧ disp.mod = md := by
  unfold takeDisp at h
  split at h
  · rename_i h0
    simp only [Option.some.injEq, Prod.mk.injEq] at h
    obtain ⟨rfl, rfl⟩ := h
    exact ⟨rfl, h0.symm⟩
  · split at h
    · rename_i h1
      cases bs with
      | nil => exact nomatch h
      | cons b t' =>
        simp only [Option.some.injEq, Prod.mk.injEq] at h
        obtain ⟨rfl, rfl⟩ := h
        exact ⟨rfl, h1.symm⟩
    · rename_i h0 h1
      have h2 : md = 2#2 := by revert md; decide
      cases ht : take32 bs with
      | none => simp [ht] at h
      | some q =>
        obtain ⟨d, t'⟩ := q
        simp only [ht, Option.some.injEq, Prod.mk.injEq] at h
        obtain ⟨rfl, rfl⟩ := h
        exact ⟨take32_sound bs _ d ht, h2.symm⟩

end Sys2Proof
end

