-- ==== Sys2Proof/Laws/Decoder.lean ====
section
/-! SUPPORT. The operand after the opcode: reading an encoded one gives it back, and whatever is read was encoded; and more
bytes after an instruction that decodes change nothing but the rest. -/

namespace Sys2Proof

/-! ### Reading back -/

theorem index_read (idx : Option GprNum) (h : indexWf idx = true) :
    (if ext4 (indexX idx) (indexField idx) = 4#4 then none else some (ext4 (indexX idx) (indexField idx))) = idx := by
  cases idx with
  | none => decide
  | some n => revert n; decide

theorem disp_mod_ne_three (d : Disp) : d.mod ≠ 3#2 := by cases d <;> simp [Disp.mod]
theorem disp_mod_eq_zero (d : Disp) : d.mod = 0#2 ↔ d = .none := by cases d <;> simp [Disp.mod]

/-- The operand of an encoding is read back. -/
theorem decodeRM_bytes (sz : AddrSize) (reg : BitVec 3) (src : RegMem) (t : List Byte) (h : src.wf sz = true) :
    decodeRM sz src.xbit src.bbit (src.bytes reg ++ t) = some (reg, src, t) := by
  cases src with
  | reg x n => simp [RegMem.bytes, decodeRM, RegMem.xbit, RegMem.bbit]
  | mem a =>
    cases a with
    | base x b disp =>
      simp only [RegMem.wf, Addr.wf, Bool.and_eq_true, bne_iff_ne, ne_eq, dispWf, Bool.or_eq_true] at h
      obtain ⟨⟨h1, h2⟩, h3⟩ := h
      have h5 : ¬ (disp.mod = 0#2 ∧ low3 b = 5#3) := by
        rw [disp_mod_eq_zero]; tauto
      simp [RegMem.bytes, Addr.bytes, decodeRM, RegMem.xbit, RegMem.bbit, Addr.xbit, Addr.bbit, disp_mod_ne_three,
        h1, decodeAddr, h2, h5]
    | sib sc idx b disp =>
      simp only [RegMem.wf, Addr.wf, Bool.and_eq_true, bne_iff_ne, ne_eq, dispWf, Bool.or_eq_true] at h
      obtain ⟨⟨h1, h2⟩, h3⟩ := h
      have h5 : ¬ (disp.mod = 0#2 ∧ low3 b = 5#3) := by
        rw [disp_mod_eq_zero]; tauto
      have hi := index_read idx h2
      simp [RegMem.bytes, Addr.bytes, decodeRM, RegMem.xbit, RegMem.bbit, Addr.xbit, Addr.bbit, disp_mod_ne_three,
        h1, decodeAddr, h5, hi]
    | sibNoBase b sc idx d =>
      simp only [RegMem.wf, Addr.wf, Bool.and_eq_true, bne_iff_ne, ne_eq] at h
      obtain ⟨h1, h2⟩ := h
      have hi := index_read idx h2
      simp [RegMem.bytes, Addr.bytes, decodeRM, RegMem.xbit, RegMem.bbit, Addr.xbit, Addr.bbit, h1, decodeAddr, hi]
    | disp32 x b d =>
      simp only [RegMem.wf, Addr.wf, bne_iff_ne, ne_eq] at h
      simp [RegMem.bytes, Addr.bytes, decodeRM, RegMem.xbit, RegMem.bbit, Addr.xbit, Addr.bbit, h, decodeAddr]
    | addr16 md rm =>
      simp only [RegMem.wf, Addr.wf, Bool.and_eq_true, bne_iff_ne, ne_eq, beq_iff_eq] at h
      simp [RegMem.bytes, Addr.bytes, decodeRM, h.1, h.2]

/-! ### Soundness -/

theorem index_sound (x : Bool) (ix : BitVec 3) :
    let idx : Option GprNum := if ext4 x ix = 4#4 then none else some (ext4 x ix)
    indexWf idx = true ∧ indexX idx = x ∧ indexField idx = ix := by
  revert x ix; decide

/-- What an operand that is read was. -/
theorem decodeRM_sound (sz : AddrSize) (x b : Bool) (bs rest : List Byte) (reg : BitVec 3) (src : RegMem)
    (hx : sz = .a16 → x = false ∧ b = false)
    (h : decodeRM sz x b bs = some (reg, src, rest)) :
    bs = src.bytes reg ++ rest ∧ src.wf sz = true ∧ src.xbit = x ∧ src.bbit = b := by
  cases bs with
  | nil => exact nomatch h
  | cons c t =>
    have hc := modRM_toByte_ofByte c
    generalize ModRM.ofByte c = f at hc
    obtain ⟨md, rg, rm⟩ := f
    subst hc
    simp only [decodeRM, modRM_ofByte_toByte] at h
    split at h
    · rename_i hm
      simp only [Option.some.injEq, Prod.mk.injEq] at h
      obtain ⟨rfl, rfl, rfl⟩ := h
      simp [RegMem.bytes, RegMem.wf, RegMem.xbit, RegMem.bbit, hm]
    · rename_i hm
      split at h
      · rename_i hz
        simp only [Option.some.injEq, Prod.mk.injEq] at h
        obtain ⟨rfl, rfl, rfl⟩ := h
        simp [RegMem.bytes, Addr.bytes, RegMem.wf, Addr.wf, RegMem.xbit, RegMem.bbit, Addr.xbit, Addr.bbit, hm, hz,
          hx hz]
      · rename_i hz
        split at h
        · exact nomatch h
        · rename_i a t' ha
          simp only [Option.some.injEq, Prod.mk.injEq] at h
          obtain ⟨rfl, rfl, rfl⟩ := h
          unfold decodeAddr at ha
          split at ha
          · rename_i hrm
            subst hrm
            cases t with
            | nil => exact nomatch ha
            | cons s t' =>
              have hs := sib_toByte_ofByte s
              generalize Sib.ofByte s = g at hs
              obtain ⟨sc, ix, bs⟩ := g
              subst hs
              simp only [sib_ofByte_toByte] at ha
              have hi := index_sound x ix
              simp only at hi
              generalize (if ext4 x ix = 4#4 then none else some (ext4 x ix) : Option GprNum) = idx at hi ha
              obtain ⟨hi1, hi2, hi3⟩ := hi
              split at ha
              · rename_i hb
                split at ha
                · exact nomatch ha
                · rename_i d t'' hd
                  simp only [Option.some.injEq, Prod.mk.injEq] at ha
                  obtain ⟨rfl, rfl⟩ := ha
                  rw [take32_sound _ _ _ hd]
                  simp [RegMem.bytes, Addr.bytes, RegMem.wf, Addr.wf, RegMem.xbit, RegMem.bbit, Addr.xbit,
                    Addr.bbit, hz, hi1, hi2, hi3, hb]
              · rename_i hb
                split at ha
                · exact nomatch ha
                · rename_i d t'' hd
                  simp only [Option.some.injEq, Prod.mk.injEq] at ha
                  obtain ⟨rfl, rfl⟩ := ha
                  obtain ⟨h1, h2⟩ := takeDisp_sound _ _ _ _ hm hd
                  subst h1 h2
                  rw [disp_mod_eq_zero] at hb
                  have hb' : dispWf (ext4 b bs) d = true := by
                    simp [dispWf]; tauto
                  simp [RegMem.bytes, Addr.bytes, RegMem.wf, Addr.wf, RegMem.xbit, RegMem.bbit, Addr.xbit,
                    Addr.bbit, hz, hi1, hi2, hi3, hb']
          · rename_i hrm
            split at ha
            · rename_i hb
              split at ha
              · exact nomatch ha
              · rename_i d t'' hd
                simp only [Option.some.injEq, Prod.mk.injEq] at ha
                obtain ⟨rfl, rfl⟩ := ha
                rw [take32_sound _ _ _ hd]
                simp [RegMem.bytes, Addr.bytes, RegMem.wf, Addr.wf, RegMem.xbit, RegMem.bbit, Addr.xbit, Addr.bbit,
                  hz, hb]
            · rename_i hb
              split at ha
              · exact nomatch ha
              · rename_i d t'' hd
                simp only [Option.some.injEq, Prod.mk.injEq] at ha
                obtain ⟨rfl, rfl⟩ := ha
                obtain ⟨h1, h2⟩ := takeDisp_sound _ _ _ _ hm hd
                subst h1 h2
                rw [disp_mod_eq_zero] at hb
                have hb' : dispWf (ext4 b rm) d = true := by
                  simp [dispWf]; tauto
                simp [RegMem.bytes, Addr.bytes, RegMem.wf, Addr.wf, RegMem.xbit, RegMem.bbit, Addr.xbit, Addr.bbit,
                  hz, hrm, hb']

/-! ### More bytes -/

/-- The answer with `b` after the bytes that are left. -/
def DecodeResult.addRest (b : List Byte) : DecodeResult → DecodeResult
  | .ok i r => .ok i (r ++ b)
  | .invalid => .invalid
  | .refuse r => .refuse r
  | .more => .more

theorem take32_append (a b : List Byte) (x) (h : take32 a = some x) : take32 (a ++ b) = some (x.1, x.2 ++ b) := by
  match a with
  | b0 :: b1 :: b2 :: b3 :: t => simp [take32] at h; subst h; simp [take32]
  | [] => exact nomatch h
  | [_] => exact nomatch h
  | [_, _] => exact nomatch h
  | [_, _, _] => exact nomatch h

theorem takeDisp_append (md) (a b : List Byte) (x) (h : takeDisp md a = some x) : takeDisp md (a ++ b) = some (x.1,
  x.2 ++ b) := by
  unfold takeDisp at h ⊢
  split at h
  · rename_i h0; simp only [h0, if_true] at h ⊢; cases h; rfl
  · rename_i h0
    simp only [h0, if_false]
    split at h
    · rename_i h1; simp only [h1, if_true]
      cases a with
      | nil => exact nomatch h
      | cons c t => cases h; rfl
    · rename_i h1; simp only [h1, if_false]
      cases ht : take32 a with
      | none => simp [ht] at h
      | some q => rw [take32_append a b q ht]; simp [ht] at h; subst h; rfl

theorem decodeAddr_append (x bb md rm) (a b : List Byte) (y) (h : decodeAddr x bb md rm a = some y) : decodeAddr x
  bb md rm (a ++ b) = some (y.1, y.2 ++ b) := by
  unfold decodeAddr at h ⊢
  split at h
  · rename_i h0; simp only [h0, if_true]
    cases a with
    | nil => exact nomatch h
    | cons c t =>
      simp only [List.cons_append] at h ⊢
      generalize Sib.ofByte c = sib at h ⊢
      split at h
      · rename_i h1; rw [if_pos h1]
        cases ht : take32 t with
        | none => simp [ht] at h
        | some q => rw [take32_append t b q ht]; simp [ht] at h; subst h; rfl
      · rename_i h1; rw [if_neg h1]
        cases ht : takeDisp md t with
        | none => simp [ht] at h
        | some q => rw [takeDisp_append md t b q ht]; simp [ht] at h; subst h; rfl
  · rename_i h0; simp only [h0, if_false]
    split at h
    · rename_i h1; rw [if_pos h1]
      cases ht : take32 a with
      | none => simp [ht] at h
      | some q => rw [take32_append a b q ht]; simp [ht] at h; subst h; rfl
    · rename_i h1; rw [if_neg h1]
      cases ht : takeDisp md a with
      | none => simp [ht] at h
      | some q => rw [takeDisp_append md a b q ht]; simp [ht] at h; subst h; rfl

theorem decodeRM_append (sz x bb) (a b : List Byte) (y) (h : decodeRM sz x bb a = some y) : decodeRM sz x bb (a ++
  b) = some (y.1, y.2.1, y.2.2 ++ b) := by
  cases a with
  | nil => exact nomatch h
  | cons c t =>
    simp only [decodeRM, List.cons_append] at h ⊢
    split at h
    · rename_i h0; rw [if_pos h0]; cases h; rfl
    · rename_i h0; rw [if_neg h0]
      split at h
      · rename_i h1; rw [if_pos h1]; cases h; rfl
      · rename_i h1; rw [if_neg h1]
        cases ht : decodeAddr x bb (ModRM.ofByte c).mod (ModRM.ofByte c).rm t with
        | none => simp [ht] at h
        | some q => rw [decodeAddr_append _ _ _ _ t b q ht]; simp [ht] at h; subst h; rfl

theorem decodeSse_append (m pre rex) (a b : List Byte) (h : decodeSse m pre rex a ≠ .more) : decodeSse m pre rex (a
  ++ b) = DecodeResult.addRest b (decodeSse m pre rex a) := by
  unfold decodeSse at h ⊢
  simp only at h ⊢
  split
  · rfl
  · split
    · rfl
    · cases ht : decodeRM (addrSizeOf m pre) (rex.getD ⟨false, false, false, false⟩).x (rex.getD ⟨false, false,
      false, false⟩).b a with
      | none => simp_all
      | some q => rw [decodeRM_append _ _ _ a b q ht]; simp only; split <;> rfl

theorem decodeLegacy_append (m pre rex) (a b : List Byte) (h : decodeLegacy m pre rex a ≠ .more) : decodeLegacy m
  pre rex (a ++ b) = DecodeResult.addRest b (decodeLegacy m pre rex a) := by
  match a with
  | [] => exact absurd rfl h
  | [b0] =>
    simp only [decodeLegacy] at h ⊢
    split at h
    · exact absurd rfl h
    · rename_i h0
      rw [if_neg h0]
      match b with
      | [] => simp [h0, DecodeResult.addRest]
      | [_] => simp [h0, DecodeResult.addRest]
      | _ :: _ :: _ => simp [h0, DecodeResult.addRest]
  | [b0, b1] =>
    simp only [decodeLegacy] at h ⊢
    split at h
    · exact absurd rfl h
    · rename_i h0
      rw [if_neg h0]
      match b with
      | [] => simp only [List.append_nil, if_neg h0, DecodeResult.addRest]
      | _ :: _ =>
        simp only [List.cons_append, List.nil_append, DecodeResult.addRest]
        rw [if_neg (fun hh => h0 ⟨hh.1, hh.2.1⟩)]
  | b0 :: b1 :: b2 :: t =>
    simp only [decodeLegacy, List.cons_append] at h ⊢
    split at h
    · rename_i h0; rw [if_pos h0, if_pos h0]; exact decodeSse_append _ _ _ _ _ h
    · rename_i h0; rw [if_neg h0, if_neg h0]; rfl

theorem decodeVex_append (m pre ar) (a b : List Byte) (h : decodeVex m pre ar a ≠ .more) : decodeVex m pre ar (a ++
  b) = DecodeResult.addRest b (decodeVex m pre ar a) := by
  match a with
  | [] => exact absurd rfl h
  | [_] => exact absurd rfl h
  | [_, _] => exact absurd rfl h
  | p0 :: p1 :: op :: t =>
    simp only [decodeVex, List.cons_append] at h ⊢
    split
    · rfl
    · split
      · rfl
      · cases ht : decodeRM (addrSizeOf m pre) (VexP0.ofByte p0).x (VexP0.ofByte p0).b t with
        | none => simp_all
        | some q => rw [decodeRM_append _ _ _ t b q ht]; simp only; split <;> try split
                    all_goals rfl

theorem decodeEvex_append (m pre ar) (a b : List Byte) (h : decodeEvex m pre ar a ≠ .more) : decodeEvex m pre ar (a
  ++ b) = DecodeResult.addRest b (decodeEvex m pre ar a) := by
  match a with
  | [] => exact absurd rfl h
  | [_] => exact absurd rfl h
  | [_, _] => exact absurd rfl h
  | [_, _, _] => exact absurd rfl h
  | p0 :: p1 :: p2 :: op :: t =>
    simp only [decodeEvex, List.cons_append] at h ⊢
    split
    · rfl
    · split
      · rfl
      · cases ht : decodeRM (addrSizeOf m pre) (EvexP0.ofByte p0).x (EvexP0.ofByte p0).b t with
        | none => simp_all
        | some q =>
          rw [decodeRM_append _ _ _ t b q ht]; simp only
          split
          · rfl
          · cases evexInstr pre (EvexP0.ofByte p0) (EvexP1.ofByte p1) (EvexP2.ofByte p2) q.1 q.2.1 <;> rfl

theorem decodeBody_append (m pre) (a b : List Byte) (h : decodeBody m pre a ≠ .more) : decodeBody m pre (a ++ b) =
  DecodeResult.addRest b (decodeBody m pre a) := by
  match a with
  | [] => exact absurd rfl h
  | [c] =>
    simp only [decodeBody] at h ⊢
    split at h
    · exact absurd rfl h
    · rename_i h0
      push Not at h0
      rw [if_neg (by push Not; exact h0), ← decodeLegacy_append _ _ _ _ _ h]
      match b with
      | [] => simp only [List.append_nil]; rw [if_neg (by push Not; exact h0)]
      | _ :: _ =>
        simp only [List.cons_append, List.nil_append]
        rw [if_neg h0.1, if_neg h0.2.1, if_neg (fun hh => h0.2.2 hh.1 hh.2)]
  | c :: c' :: t =>
    simp only [decodeBody, List.cons_append] at h ⊢
    split
    · rename_i h1; rw [if_pos h1] at h
      split
      · rename_i h2; rw [if_pos h2] at h; exact decodeVex_append _ _ _ _ _ h
      · rfl
    · rename_i h1; rw [if_neg h1] at h
      split
      · rename_i h1; rw [if_pos h1] at h
        split
        · rename_i h2; rw [if_pos h2] at h; exact decodeEvex_append _ _ _ _ _ h
        · rfl
      · rename_i h1; rw [if_neg h1] at h
        split
        · rename_i h1; rw [if_pos h1] at h
          split
          · rename_i h2; rw [if_pos h2] at h; exact decodeVex_append _ _ _ _ _ h
          · rename_i h2; rw [if_neg h2] at h
            split
            · rename_i h2; rw [if_pos h2] at h; exact decodeEvex_append _ _ _ _ _ h
            · rename_i h2; rw [if_neg h2] at h; exact decodeLegacy_append _ _ _ (c' :: t) _ h
        · rename_i h1; rw [if_neg h1] at h; exact decodeLegacy_append _ _ _ (c :: c' :: t) _ h

theorem splitPrefixes_append (a b : List Byte) (h : (splitPrefixes a).2 ≠ []) : splitPrefixes (a ++ b) =
  ((splitPrefixes a).1, (splitPrefixes a).2 ++ b) := by
  induction a with
  | nil => exact absurd rfl h
  | cons c t ih =>
    cases hc : LegacyPrefix.ofByte c with
    | none => simp [splitPrefixes, hc]
    | some p =>
      simp only [splitPrefixes, hc, List.cons_append] at h ⊢
      rw [ih h]

/-- Bytes that decode to anything but `more` decode to the same with more bytes after them. -/
theorem decode_append (m) (a b : List Byte) (h : decode m a ≠ .more) : decode m (a ++ b) = DecodeResult.addRest b
  (decode m a) := by
  unfold decode at h ⊢
  by_cases he : (splitPrefixes a).2 = []
  · rw [he] at h; exact absurd rfl h
  · rw [splitPrefixes_append a b he]; exact decodeBody_append _ _ _ _ h

end Sys2Proof
end

