-- ==== Sys2Proof/Laws/Lanes.lean ====
section
/-! SUPPORT. The lanes of the vector functions, and the relation between lanes and the bits of a register (R6, R10). -/

namespace Sys2Proof.Machine

theorem lowLanes_getElem (n : Nat) (x : Vec) (j : Nat) (h : j < 8) :
    (lowLanes n x)[j] = if j < n then x[j] else 0#64 := by
  simp [lowLanes]

/-- Cutting twice to the same length is cutting once. -/
@[simp] theorem lowLanes_lowLanes (n : Nat) (x : Vec) : lowLanes n (lowLanes n x) = lowLanes n x := by
  apply Vector.ext
  intro j hj
  simp only [lowLanes_getElem]
  split <;> rfl

theorem packedMul_getElem (kl : Nat) (x y : Vec) (j : Nat) (h : j < 8) :
    (packedMul kl x y)[j] = if j < kl then laneMul (evenDword x[j]) (evenDword y[j]) else 0#64 := by
  simp [packedMul]

theorem replaceLow_getElem (kl : Nat) (x y : Vec) (j : Nat) (h : j < 8) :
    (replaceLow kl x y)[j] = if j < kl then y[j] else x[j] := by
  simp [replaceLow]

theorem evexResult_getElem (s : State) (kl : Nat) (mk : Masking) (old x y : Vec) (j : Nat) (h : j < 8) :
    (evexResult s kl mk old x y)[j] =
      if j < kl then
        if elementActive s mk j then laneMul (evenDword x[j]) (evenDword y[j]) else maskedOff mk old[j]
      else 0#64 := by
  simp [evexResult]

theorem readVec_getElem (m : Memory) (a kl j : Nat) (h : j < 8) :
    (readVec m a kl)[j] = if j < kl then readQword m (a + 8 * j) else 0#64 := by
  simp [readVec]

theorem broadcast_getElem (q : Qword) (kl j : Nat) (h : j < 8) :
    (broadcast q kl)[j] = if j < kl then q else 0#64 := by
  simp [broadcast]

/-- Bit `i` of a register is bit `i mod 64` of its lane `i / 64`. -/
theorem vecBits_getLsbD (x : Vec) (i : Nat) (h : i < 512) :
    (vecBits x).getLsbD i = (x[i / 64]'(by omega)).getLsbD (i % 64) := by
  obtain ⟨j, r, hj, hr, rfl⟩ : ∃ j r, j < 8 ∧ r < 64 ∧ i = 64 * j + r :=
    ⟨i / 64, i % 64, by omega, by omega, by omega⟩
  have h1 : (64 * j + r) / 64 = j := by omega
  have h2 : (64 * j + r) % 64 = r := by omega
  simp only [h1, h2]
  unfold vecBits
  interval_cases j <;> simp <;> grind

/-- Bits `[64j+63:64j]` of a register are its lane `j`. -/
theorem vecBits_lane (x : Vec) (j : Nat) (h : j < 8) : (vecBits x).extractLsb' (64 * j) 64 = x[j] := by
  ext i hi
  have h1 : (64 * j + i) / 64 = j := by omega
  have h2 : (64 * j + i) % 64 = i := by omega
  rw [BitVec.getElem_extractLsb', vecBits_getLsbD x _ (by omega)]
  simp only [h1, h2, BitVec.getLsbD_eq_getElem hi]

/-- Bits `[64j+31:64j]` of a register are the even doubleword of its lane `j`. -/
theorem vecBits_even (x : Vec) (j : Nat) (h : j < 8) :
    (vecBits x).extractLsb' (64 * j) 32 = evenDword x[j] := by
  ext i hi
  have h1 : (64 * j + i) / 64 = j := by omega
  have h2 : (64 * j + i) % 64 = i := by omega
  rw [BitVec.getElem_extractLsb', vecBits_getLsbD x _ (by omega)]
  simp [h1, h2, evenDword]

end Sys2Proof.Machine
end

