-- ==== Sys2Proof/Laws/State.lean ====
section
/-! SUPPORT. One lemma per field for each update of the state: the write of a vector register, and the launch. -/

namespace Sys2Proof.Machine

section
variable (s : State) (n : VecNum) (x : Vec) (bs : List Byte)

@[simp] theorem writeV_cpu : (writeV s n x).cpu = s.cpu := rfl
@[simp] theorem writeV_mode : (writeV s n x).mode = s.mode := rfl
@[simp] theorem writeV_cpl : (writeV s n x).cpl = s.cpl := rfl
@[simp] theorem writeV_v : (writeV s n x).v = s.v.set n.toNat (lowLanes s.cpu.maxVL.lanes x) := rfl
@[simp] theorem writeV_k : (writeV s n x).k = s.k := rfl
@[simp] theorem writeV_gpr : (writeV s n x).gpr = s.gpr := rfl
@[simp] theorem writeV_pc : (writeV s n x).pc = s.pc := rfl
@[simp] theorem writeV_rflags : (writeV s n x).rflags = s.rflags := rfl
@[simp] theorem writeV_mxcsr : (writeV s n x).mxcsr = s.mxcsr := rfl
@[simp] theorem writeV_cr0 : (writeV s n x).cr0 = s.cr0 := rfl
@[simp] theorem writeV_cr4 : (writeV s n x).cr4 = s.cr4 := rfl
@[simp] theorem writeV_xcr0 : (writeV s n x).xcr0 = s.xcr0 := rfl
@[simp] theorem writeV_csBase : (writeV s n x).csBase = s.csBase := rfl
@[simp] theorem writeV_fsBase : (writeV s n x).fsBase = s.fsBase := rfl
@[simp] theorem writeV_gsBase : (writeV s n x).gsBase = s.gsBase := rfl
@[simp] theorem writeV_regions : (writeV s n x).regions = s.regions := rfl
@[simp] theorem writeV_mem : (writeV s n x).mem = s.mem := rfl
@[simp] theorem ip_writeV : ip (writeV s n x) = ip s := rfl

@[simp] theorem loadProgram_mode : (loadProgram s bs).mode = .mode64 := rfl
@[simp] theorem loadProgram_cpu : (loadProgram s bs).cpu = s.cpu := rfl
@[simp] theorem loadProgram_v : (loadProgram s bs).v = s.v := rfl
@[simp] theorem loadProgram_k : (loadProgram s bs).k = s.k := rfl
@[simp] theorem loadProgram_gpr : (loadProgram s bs).gpr = s.gpr := rfl
@[simp] theorem loadProgram_pc : (loadProgram s bs).pc = s.pc := rfl
@[simp] theorem loadProgram_regions : (loadProgram s bs).regions = flatRegions := rfl
@[simp] theorem loadProgram_mem : (loadProgram s bs).mem = writeBytes s.mem (fetchAddress (launch s)) bs := rfl

end

/-- A written register reads as the written value, cut to `MAX_VL`. -/
theorem readV_writeV_same (s : State) (n : VecNum) (x : Vec) :
    readV (writeV s n x) n = lowLanes s.cpu.maxVL.lanes x := by
  simp [readV]

/-- A write leaves every other register as it was. -/
theorem readV_writeV_other (s : State) (n m : VecNum) (x : Vec) (h : m ≠ n) : readV (writeV s n x) m = readV s m := by
  have hne : n.toNat ≠ m.toNat := fun e => h (BitVec.eq_of_toNat_eq e.symm)
  simp [readV, Vector.getElem_set_ne, hne]

/-- Reading a vector register depends on the registers and the processor only. -/
theorem readV_congr {s t : State} (hv : t.v = s.v) (hc : t.cpu = s.cpu) (n : VecNum) : readV t n = readV s n := by
  simp [readV, hv, hc]

end Sys2Proof.Machine
end

