-- ==== Sys2Proof/Laws/Ops.lean ====
section
/-! SUPPORT. What each shared operation can do, said once: the access check, the reads, completing and the shape of
a form. -/

namespace Sys2Proof.Machine

/-! ### Access -/

theorem allFrom_eq_true (p : Nat → Bool) (a n : Nat) : allFrom p a n = true ↔ ∀ i, i < n → p (a + i) = true := by
  induction n generalizing a with
  | zero => simp [allFrom]
  | succ n ih =>
    simp only [allFrom, Bool.and_eq_true, ih]
    constructor
    · rintro ⟨h0, h⟩ i hi
      cases i with
      | zero => simpa using h0
      | succ i => simpa [Nat.add_assoc, Nat.add_comm 1 i] using h i (by omega)
    · intro h
      exact ⟨by simpa using h 0 (by omega), fun i hi => by
        simpa [Nat.add_assoc, Nat.add_comm 1 i] using h (i + 1) (by omega)⟩

theorem allFrom_eq_false (p : Nat → Bool) (a n : Nat) : allFrom p a n = false ↔ ∃ i, i < n ∧ p (a + i) = false := by
  rw [← Bool.not_eq_true, allFrom_eq_true]
  simp

/-- The access check passes exactly when every byte can be read. -/
theorem access_eq_value (s : State) (stack : Bool) (a n : Nat) :
    access s stack a n = .value () ↔ BytesReadable s a n := by
  unfold access BytesReadable ByteReadable
  cases h1 : allFrom (legalAddr s.mode) a n with
  | false =>
    simp only [Bool.not_false, if_true]
    rw [allFrom_eq_false] at h1
    obtain ⟨i, hi, hf⟩ := h1
    constructor
    · intro h; exact nomatch h
    · intro h; exact absurd (h i hi).1 (by simp [hf])
  | true =>
    rw [allFrom_eq_true] at h1
    cases h2 : allFrom (fun b => pageAnswer s b != .notReadable) a n with
    | false =>
      simp only [Bool.not_false, Bool.not_true, if_true, Bool.false_eq_true, if_false]
      rw [allFrom_eq_false] at h2
      obtain ⟨i, hi, hf⟩ := h2
      constructor
      · intro h; exact nomatch h
      · intro h; simp [(h i hi).2] at hf
    | true =>
      rw [allFrom_eq_true] at h2
      cases h3 : allFrom (fun b => pageAnswer s b != .device) a n with
      | false =>
        simp only [Bool.not_false, Bool.not_true, if_true, Bool.false_eq_true, if_false]
        rw [allFrom_eq_false] at h3
        obtain ⟨i, hi, hf⟩ := h3
        constructor
        · intro h; exact nomatch h
        · intro h; simp [(h i hi).2] at hf
      | true =>
        rw [allFrom_eq_true] at h3
        simp only [Bool.not_true, Bool.false_eq_true, if_false, true_iff]
        intro i hi
        refine ⟨h1 i hi, ?_⟩
        have b2 := h2 i hi
        have b3 := h3 i hi
        cases hp : pageAnswer s (a + i) <;> simp_all

/-- An illegal address is reported first (R117). -/
theorem access_of_illegal (s : State) (stack : Bool) (a n : Nat) (h : ∃ i, i < n ∧ legalAddr s.mode (a + i) = false) :
    access s stack a n = .raise (if stack then .ss0 else .gp0) := by
  simp [access, (allFrom_eq_false _ a n).2 h]

/-- With legal addresses, a byte that cannot be read is a page fault (R34). -/
theorem access_of_notReadable (s : State) (stack : Bool) (a n : Nat)
    (hl : ∀ i, i < n → legalAddr s.mode (a + i) = true) (h : ∃ i, i < n ∧ pageAnswer s (a + i) = .notReadable) :
    access s stack a n = .raise .pf := by
  have h2 : allFrom (fun b => pageAnswer s b != .notReadable) a n = false := by
    obtain ⟨i, hi, hp⟩ := h
    exact (allFrom_eq_false _ a n).2 ⟨i, hi, by simp [hp]⟩
  simp [access, (allFrom_eq_true _ a n).2 hl, h2]

/-- A readable operand that touches a device is refused (R32). -/
theorem access_of_device (s : State) (stack : Bool) (a n : Nat)
    (hl : ∀ i, i < n → legalAddr s.mode (a + i) = true ∧ pageAnswer s (a + i) ≠ .notReadable)
    (h : ∃ i, i < n ∧ pageAnswer s (a + i) = .device) : access s stack a n = .refuse .deviceMemory := by
  have h1 := (allFrom_eq_true (legalAddr s.mode) a n).2 fun i hi => (hl i hi).1
  have h2 := (allFrom_eq_true (fun b => pageAnswer s b != .notReadable) a n).2 fun i hi => by
    simpa using (hl i hi).2
  have h3 : allFrom (fun b => pageAnswer s b != .device) a n = false := by
    obtain ⟨i, hi, hp⟩ := h
    exact (allFrom_eq_false _ a n).2 ⟨i, hi, by simp [hp]⟩
  simp [access, h1, h2, h3]

/-- What the access check can answer: it passes, #SS(0), #GP(0), #PF, or the refusal of a device. -/
theorem access_cases (s : State) (stack : Bool) (a n : Nat) :
    access s stack a n = .value () ∨ access s stack a n = .raise .ss0 ∨ access s stack a n = .raise .gp0 ∨
      access s stack a n = .raise .pf ∨ access s stack a n = .refuse .deviceMemory := by
  unfold access
  cases stack <;> split <;> try split
  all_goals try split
  all_goals simp

/-- The checks of `MemRead` pass exactly when the alignment rule holds and every byte can be read. -/
theorem checkRead_eq_value (s : State) (aligned stack : Bool) (a n : Nat) :
    checkRead s aligned stack a n = .value () ↔ (aligned = true → a % 16 = 0) ∧ BytesReadable s a n := by
  unfold checkRead
  cases aligned with
  | false => simp [access_eq_value]
  | true =>
    by_cases h : a % 16 = 0 <;> simp [h, access_eq_value]

/-- What the checks of `MemRead` can answer. -/
theorem checkRead_cases (s : State) (aligned stack : Bool) (a n : Nat) :
    checkRead s aligned stack a n = .value () ∨ checkRead s aligned stack a n = .raise .ss0 ∨
      checkRead s aligned stack a n = .raise .gp0 ∨ checkRead s aligned stack a n = .raise .pf ∨
      checkRead s aligned stack a n = .refuse .deviceMemory := by
  unfold checkRead
  split
  · simp
  · exact access_cases s stack a n

/-! ### The second source -/

/-- What reading the second source can answer: a value, one of #SS(0), #GP(0), #PF, or one of two refusals. -/
theorem source2_cases (s : State) (f : Form) (pre : List LegacyPrefix) (len : Nat) (src : EvexSrc) :
    (∃ y, source2 s f pre len src = .value y) ∨ source2 s f pre len src = .raise .ss0 ∨
      source2 s f pre len src = .raise .gp0 ∨ source2 s f pre len src = .raise .pf ∨
      source2 s f pre len src = .refuse .deviceMemory ∨ source2 s f pre len src = .refuse .addressing16 := by
  have key : ∀ (n bytes : Nat) (a : Addr) (g : Nat → Vec),
      (∃ y, (operandAddress s f pre n bytes len a).map g = .value y) ∨
        (operandAddress s f pre n bytes len a).map g = .raise .ss0 ∨
        (operandAddress s f pre n bytes len a).map g = .raise .gp0 ∨
        (operandAddress s f pre n bytes len a).map g = .raise .pf ∨
        (operandAddress s f pre n bytes len a).map g = .refuse .deviceMemory ∨
        (operandAddress s f pre n bytes len a).map g = .refuse .addressing16 := by
    intro n bytes a g
    unfold operandAddress
    cases linearAddress s pre n len a with
    | none => simp [Read.map]
    | some la =>
      rcases checkRead_cases s (alignedForm f) (usesStack pre a) la.toNat bytes with h | h | h | h | h <;>
        simp [h, Read.map]
  match src with
  | .rm (.reg x n) => exact .inl ⟨_, rfl⟩
  | .rm (.mem a) => exact key _ _ a _
  | .bcst a => exact key _ _ a _

/-! ### Completing -/

/-- Completing an instruction whose next address fits. -/
theorem advance_eq_next (len : Nat) (s : State) (h : NextFits len s) :
    advance len s = .next { s with pc := BitVec.ofNat 64 ((ip s).toNat + len) } := by
  unfold NextFits at h
  simp [advance, h]

/-- Completing is refused where the next address does not fit. -/
theorem advance_eq_refused (len : Nat) (s : State) (h : ¬ NextFits len s) : advance len s = .refused .pcWrap := by
  unfold NextFits at h
  simp [advance, h]

/-- The instruction pointer after completing is that before it plus the length. -/
theorem ip_advanced (len : Nat) (s : State) (h : NextFits len s) :
    (ip { s with pc := BitVec.ofNat 64 ((ip s).toNat + len) }).toNat = (ip s).toNat + len := by
  unfold NextFits at h
  cases hm : s.mode <;> simp only [hm, Mode.top] at h <;> simp only [ip, hm, low32] at h ⊢ <;>
    simp only [BitVec.toNat_setWidth, BitVec.toNat_ofNat] at h ⊢ <;> omega

/-! ### The shape of a form -/

/-- Everything a form can do. -/
theorem runForm_cases (f : Form) (len : Nat) (src : Read Vec) (write : Vec → State) (s : State) :
    (∃ e, checkAvailable f s = some e ∧ runForm f len src write s = raiseException e s) ∨
    (checkAvailable f s = none ∧ s.mode.inSpec = false ∧ runForm f len src write s = .refused .modeOutsideSpec) ∨
    (checkAvailable f s = none ∧ s.mode.inSpec = true ∧
      ((∃ e, src = .raise e ∧ runForm f len src write s = raiseException e s) ∨
       (∃ r, src = .refuse r ∧ runForm f len src write s = .refused r) ∨
       (∃ y, src = .value y ∧ runForm f len src write s = advance len (write y)))) := by
  cases hc : checkAvailable f s with
  | some e => exact .inl ⟨e, rfl, by simp [runForm, hc]⟩
  | none =>
    cases hm : s.mode.inSpec with
    | false => exact .inr (.inl ⟨rfl, rfl, by simp [runForm, hc, hm]⟩)
    | true =>
      refine .inr (.inr ⟨rfl, rfl, ?_⟩)
      cases src with
      | raise e => exact .inl ⟨e, rfl, by simp [runForm, hc, hm]⟩
      | refuse r => exact .inr (.inl ⟨r, rfl, by simp [runForm, hc, hm]⟩)
      | value y => exact .inr (.inr ⟨y, rfl, by simp [runForm, hc, hm]⟩)

/-- A form that answers a next state was available, its source gave a value and the next address fits. -/
theorem runForm_eq_next {f : Form} {len : Nat} {src : Read Vec} {write : Vec → State} {s t : State}
    (h : runForm f len src write s = .next t) :
    checkAvailable f s = none ∧ s.mode.inSpec = true ∧ ∃ y, src = .value y ∧ NextFits len (write y) ∧
      t = { write y with pc := BitVec.ofNat 64 ((ip (write y)).toNat + len) } := by
  rcases runForm_cases f len src write s with ⟨e, -, he⟩ | ⟨-, -, he⟩ | ⟨hc, hm, ⟨e, -, he⟩ | ⟨r, -, he⟩ | ⟨y, hy, he⟩⟩
  · rw [he] at h; cases e <;> exact nomatch h
  · rw [he] at h; exact nomatch h
  · rw [he] at h; cases e <;> exact nomatch h
  · rw [he] at h; exact nomatch h
  · rw [he] at h
    refine ⟨hc, hm, y, hy, ?_⟩
    by_cases hn : NextFits len (write y)
    · rw [advance_eq_next len _ hn] at h
      exact ⟨hn, by cases h; rfl⟩
    · rw [advance_eq_refused len _ hn] at h
      exact nomatch h

/-- The availability check passes exactly when the form is offered, allowed in the mode and enabled, and CR0.TS is 0. -/
theorem checkAvailable_eq_none (f : Form) (s : State) :
    checkAvailable f s = none ↔
      featurePresent f s.cpu.feat = true ∧ (f = .sse ∨ s.mode.inSpec = true) ∧ osEnabled f s = true ∧
        taskSwitched s = false := by
  unfold checkAvailable udOutsideProtected
  cases featurePresent f s.cpu.feat <;> cases s.mode.inSpec <;> cases osEnabled f s <;> cases taskSwitched s <;>
    cases f <;> simp

/-- `Ready` is the availability check with a mode of the spec. -/
theorem ready_iff (f : Form) (s : State) : Ready f s ↔ checkAvailable f s = none ∧ s.mode.inSpec = true := by
  rw [checkAvailable_eq_none]
  unfold Ready
  tauto

end Sys2Proof.Machine
end

