-- ==== Sys2Proof/Laws/Exec.lean ====
section
/-! SUPPORT. The one shape of all six meanings, what each of them can answer, and the lanes of what they read. -/

namespace Sys2Proof.Machine

/-- The second source of an instruction. -/
def sourceOf : Instr → EvexSrc
  | .pmuldq _ _ _ src => .rm src
  | .vpmuldqVex128 _ _ _ _ src => .rm src
  | .vpmuldqVex256 _ _ _ _ src => .rm src
  | .vpmuldqEvex128 _ _ _ _ src => src
  | .vpmuldqEvex256 _ _ _ _ src => src
  | .vpmuldqEvex512 _ _ _ _ src => src

/-- The value an instruction writes to its destination register, from the state and the second source. -/
def resultOf (i : Instr) (s : State) (y : Vec) : Vec :=
  match i with
  | .pmuldq _ _ d _ => replaceLow 2 (readV s (d.setWidth 5)) (packedMul 2 (readV s (d.setWidth 5)) y)
  | .vpmuldqVex128 _ _ _ a _ => packedMul 2 (readV s (a.setWidth 5)) y
  | .vpmuldqVex256 _ _ _ a _ => packedMul 4 (readV s (a.setWidth 5)) y
  | .vpmuldqEvex128 _ d a mk _ => evexResult s 2 mk (readV s d) (readV s a) y
  | .vpmuldqEvex256 _ d a mk _ => evexResult s 4 mk (readV s d) (readV s a) y
  | .vpmuldqEvex512 _ d a mk _ => evexResult s 8 mk (readV s d) (readV s a) y

/-- The state after an instruction that completes: `V[d]` written with `x`, the instruction pointer at `p`. -/
def completed (s : State) (d : VecNum) (x : Vec) (p : Qword) : State := { writeV s d x with pc := p }

section
variable (s : State) (d : VecNum) (x : Vec) (p : Qword)

@[simp] theorem completed_pc : (completed s d x p).pc = p := rfl
@[simp] theorem completed_v : (completed s d x p).v = s.v.set d.toNat (lowLanes s.cpu.maxVL.lanes x) := rfl
@[simp] theorem completed_cpu : (completed s d x p).cpu = s.cpu := rfl
@[simp] theorem completed_mode : (completed s d x p).mode = s.mode := rfl
@[simp] theorem completed_cpl : (completed s d x p).cpl = s.cpl := rfl
@[simp] theorem completed_k : (completed s d x p).k = s.k := rfl
@[simp] theorem completed_gpr : (completed s d x p).gpr = s.gpr := rfl
@[simp] theorem completed_rflags : (completed s d x p).rflags = s.rflags := rfl
@[simp] theorem completed_mxcsr : (completed s d x p).mxcsr = s.mxcsr := rfl
@[simp] theorem completed_cr0 : (completed s d x p).cr0 = s.cr0 := rfl
@[simp] theorem completed_cr4 : (completed s d x p).cr4 = s.cr4 := rfl
@[simp] theorem completed_xcr0 : (completed s d x p).xcr0 = s.xcr0 := rfl
@[simp] theorem completed_csBase : (completed s d x p).csBase = s.csBase := rfl
@[simp] theorem completed_fsBase : (completed s d x p).fsBase = s.fsBase := rfl
@[simp] theorem completed_gsBase : (completed s d x p).gsBase = s.gsBase := rfl
@[simp] theorem completed_regions : (completed s d x p).regions = s.regions := rfl
@[simp] theorem completed_mem : (completed s d x p).mem = s.mem := rfl

end

/-- Every meaning is the shared shape with its own source and result. -/
theorem exec_shape (i : Instr) (s : State) :
    exec i s = runForm i.form i.length (source2 s i.form i.prefixes i.length (sourceOf i))
      (fun y => writeV s i.dest (resultOf i s y)) s := by
  cases i <;> rfl

/-- What an instruction that answers a next state did. -/
theorem exec_next {i : Instr} {s t : State} (h : exec i s = .next t) :
    Ready i.form s ∧ NextFits i.length s ∧
      ∃ y, source2 s i.form i.prefixes i.length (sourceOf i) = .value y ∧
        t = completed s i.dest (resultOf i s y) (BitVec.ofNat 64 ((ip s).toNat + i.length)) := by
  rw [exec_shape] at h
  obtain ⟨hc, hm, y, hy, hn, ht⟩ := runForm_eq_next h
  exact ⟨(ready_iff _ _).2 ⟨hc, hm⟩, hn, y, hy, ht⟩

/-- An available instruction whose source has a value and whose next address fits completes. -/
theorem exec_of_value {i : Instr} {s : State} {y : Vec} (hr : Ready i.form s) (hn : NextFits i.length s)
    (hy : source2 s i.form i.prefixes i.length (sourceOf i) = .value y) :
    exec i s = .next (completed s i.dest (resultOf i s y) (BitVec.ofNat 64 ((ip s).toNat + i.length))) := by
  obtain ⟨hc, hm⟩ := (ready_iff _ _).1 hr
  rw [exec_shape]
  simp only [runForm, hc, hm, hy, if_true]
  exact advance_eq_next _ _ hn

/-- An available instruction whose source raises an exception raises it. -/
theorem exec_of_raise {i : Instr} {s : State} {e : ExcKind} (hr : Ready i.form s)
    (h : source2 s i.form i.prefixes i.length (sourceOf i) = .raise e) : exec i s = raiseException e s := by
  obtain ⟨hc, hm⟩ := (ready_iff _ _).1 hr
  rw [exec_shape]
  simp only [runForm, hc, hm, h, if_true]

/-- An available instruction whose source is refused is refused. -/
theorem exec_of_refuse {i : Instr} {s : State} {r : Refusal} (hr : Ready i.form s)
    (h : source2 s i.form i.prefixes i.length (sourceOf i) = .refuse r) : exec i s = .refused r := by
  obtain ⟨hc, hm⟩ := (ready_iff _ _).1 hr
  rw [exec_shape]
  simp only [runForm, hc, hm, h, if_true]

/-- The destination register after an instruction that completes. -/
theorem readV_completed (s : State) (d : VecNum) (x : Vec) (p : Qword) :
    readV (completed s d x p) d = lowLanes s.cpu.maxVL.lanes x :=
  readV_writeV_same s d x

/-! ### Lanes -/

theorem evenOf_eq (s : State) (n : VecNum) (j : Nat) (h : j < 8) : evenOf s n j = evenDword (readV s n)[j] :=
  vecBits_even _ j h

theorem laneOf_eq (s : State) (n : VecNum) (j : Nat) (h : j < 8) : laneOf s n j = (readV s n)[j] :=
  vecBits_lane _ j h

/-- The low doubleword of eight bytes is that of the first four (R26). -/
theorem evenDword_readQword (m : Memory) (a : Nat) : evenDword (readQword m a) = dwordAt m a := by
  unfold evenDword readQword dwordAt
  ext i hi
  simp
  grind

/-- Lanes that are zero from `kl` on have no bit from `64 * kl` on. -/
theorem vecBits_zero_above (x : Vec) (kl : Nat) (h : ∀ j (hj : j < 8), kl ≤ j → x[j] = 0#64) (i : Nat)
    (hi : 64 * kl ≤ i) : (vecBits x).getLsbD i = false := by
  by_cases hb : i < 512
  · rw [vecBits_getLsbD _ _ hb, h _ (by omega) (by omega)]; simp
  · exact BitVec.getLsbD_of_ge _ _ (by omega)

/-- Where `SourceGives` holds the second source has a value, and its even doublewords are the ones given. -/
theorem source2_of_gives {s : State} {f : Form} {pre : List LegacyPrefix} {len : Nat} {src : EvexSrc}
    {g : Nat → Dword} (h : SourceGives s f pre len src g) :
    ∃ y, source2 s f pre len src = .value y ∧ ∀ j (hj : j < 8), j < f.kl → evenDword y[j] = g j := by
  match src with
  | .rm (.reg x n) =>
    refine ⟨_, rfl, fun j hj hk => ?_⟩
    rw [lowLanes_getElem]
    simp only [hk, if_true]
    rw [h j hk, evenOf_eq _ _ _ hj]
  | .rm (.mem a) =>
    obtain ⟨la, ⟨h1, h2, h3⟩, hg⟩ := h
    have : checkRead s (alignedForm f) (usesStack pre a) la.toNat (8 * f.kl) = .value () := by
      rw [checkRead_eq_value]
      refine ⟨fun hf => h2 (by cases f <;> simp_all [alignedForm]), h3⟩
    refine ⟨readVec s.mem la.toNat f.kl, by simp [source2, operandAddress, h1, this, Read.map], fun j hj hk => ?_⟩
    rw [readVec_getElem]
    simp only [hk, if_true]
    rw [hg j hk, evenDword_readQword]
  | .bcst a =>
    obtain ⟨la, ⟨h1, h2, h3⟩, hg⟩ := h
    have : checkRead s (alignedForm f) (usesStack pre a) la.toNat 8 = .value () := by
      rw [checkRead_eq_value]
      refine ⟨fun hf => h2 (by cases f <;> simp_all [alignedForm]), h3⟩
    refine ⟨broadcast (readQword s.mem la.toNat) f.kl, by simp [source2, operandAddress, h1, this, Read.map],
      fun j hj hk => ?_⟩
    rw [broadcast_getElem]
    simp only [hk, if_true]
    rw [hg j hk, evenDword_readQword]

/-- The second source of an instruction with a memory operand is read through its address check. -/
theorem source2_mem (i : Instr) (s : State) (a : Addr) (n bytes : Nat) (hm : memOperand i = some (a, n, bytes)) :
    ∃ g : Nat → Vec, source2 s i.form i.prefixes i.length (sourceOf i) =
      (operandAddress s i.form i.prefixes n bytes i.length a).map g := by
  match i with
  | .pmuldq _ _ _ (.mem a) => simp only [memOperand] at hm; cases hm; exact ⟨_, rfl⟩
  | .vpmuldqVex128 _ _ _ _ (.mem a) => simp only [memOperand] at hm; cases hm; exact ⟨_, rfl⟩
  | .vpmuldqVex256 _ _ _ _ (.mem a) => simp only [memOperand] at hm; cases hm; exact ⟨_, rfl⟩
  | .vpmuldqEvex128 _ _ _ _ (.rm (.mem a)) => simp only [memOperand] at hm; cases hm; exact ⟨_, rfl⟩
  | .vpmuldqEvex256 _ _ _ _ (.rm (.mem a)) => simp only [memOperand] at hm; cases hm; exact ⟨_, rfl⟩
  | .vpmuldqEvex512 _ _ _ _ (.rm (.mem a)) => simp only [memOperand] at hm; cases hm; exact ⟨_, rfl⟩
  | .vpmuldqEvex128 _ _ _ _ (.bcst a) => simp only [memOperand] at hm; cases hm; exact ⟨_, rfl⟩
  | .vpmuldqEvex256 _ _ _ _ (.bcst a) => simp only [memOperand] at hm; cases hm; exact ⟨_, rfl⟩
  | .vpmuldqEvex512 _ _ _ _ (.bcst a) => simp only [memOperand] at hm; cases hm; exact ⟨_, rfl⟩
  | .pmuldq _ _ _ (.reg _ _) => simp [memOperand] at hm
  | .vpmuldqVex128 _ _ _ _ (.reg _ _) => simp [memOperand] at hm
  | .vpmuldqVex256 _ _ _ _ (.reg _ _) => simp [memOperand] at hm
  | .vpmuldqEvex128 _ _ _ _ (.rm (.reg _ _)) => simp [memOperand] at hm
  | .vpmuldqEvex256 _ _ _ _ (.rm (.reg _ _)) => simp [memOperand] at hm
  | .vpmuldqEvex512 _ _ _ _ (.rm (.reg _ _)) => simp [memOperand] at hm

/-- An instruction without a memory operand has a register as its second source. -/
theorem sourceOf_reg (i : Instr) (hm : memOperand i = none) : ∃ x n, sourceOf i = .rm (.reg x n) := by
  match i with
  | .pmuldq _ _ _ (.mem a) => simp [memOperand] at hm
  | .vpmuldqVex128 _ _ _ _ (.mem a) => simp [memOperand] at hm
  | .vpmuldqVex256 _ _ _ _ (.mem a) => simp [memOperand] at hm
  | .vpmuldqEvex128 _ _ _ _ (.rm (.mem a)) => simp [memOperand] at hm
  | .vpmuldqEvex256 _ _ _ _ (.rm (.mem a)) => simp [memOperand] at hm
  | .vpmuldqEvex512 _ _ _ _ (.rm (.mem a)) => simp [memOperand] at hm
  | .vpmuldqEvex128 _ _ _ _ (.bcst a) => simp [memOperand] at hm
  | .vpmuldqEvex256 _ _ _ _ (.bcst a) => simp [memOperand] at hm
  | .vpmuldqEvex512 _ _ _ _ (.bcst a) => simp [memOperand] at hm
  | .pmuldq _ _ _ (.reg x n) => exact ⟨x, n, rfl⟩
  | .vpmuldqVex128 _ _ _ _ (.reg x n) => exact ⟨x, n, rfl⟩
  | .vpmuldqVex256 _ _ _ _ (.reg x n) => exact ⟨x, n, rfl⟩
  | .vpmuldqEvex128 _ _ _ _ (.rm (.reg x n)) => exact ⟨x, n, rfl⟩
  | .vpmuldqEvex256 _ _ _ _ (.rm (.reg x n)) => exact ⟨x, n, rfl⟩
  | .vpmuldqEvex512 _ _ _ _ (.rm (.reg x n)) => exact ⟨x, n, rfl⟩

end Sys2Proof.Machine
end

