-- ==== Sys2Proof/Laws/Fetch.lean ====
section
/-! SUPPORT. Fetching: readable code bytes are the window's first bytes, and what a step that answers a next state
  did. -/

namespace Sys2Proof.Machine

theorem codeByte_of (s : State) (a : Nat) (h : ByteReadable s a) (ht : a < s.mode.top) : codeByte s a = .value
  (readByte s.mem a) := by
  have : access s false a 1 = .value () := by
    rw [access_eq_value]; intro i hi
    have : i = 0 := by omega
    subst this; exact h
  simp [codeByte, ht, this, Read.map]

theorem legal_top (m : Mode) (a : Nat) (h : legalAddr m a = true) : a < m.top := by
  cases m <;> simp [legalAddr, Mode.top] at h ⊢ <;> omega

/-- The bytes `bs`, readable from `a` on, are the first bytes of the reading. -/
theorem codeBytes_prefix (s : State) (bs : List Byte) (n a : Nat) (hn : bs.length ≤ n)
    (h : ∀ j, (hj : j < bs.length) → ByteReadable s (a + j) ∧ readByte s.mem (a + j) = bs[j]) :
    ∃ rest, (codeBytes s a n).1 = bs ++ rest ∧ codeBytes s a n = (bs ++ (codeBytes s (a + bs.length) (n -
      bs.length)).1, (codeBytes s (a + bs.length) (n - bs.length)).2) := by
  induction bs generalizing n a with
  | nil => exact ⟨_, rfl, rfl⟩
  | cons b t ih =>
    match n with
    | 0 => simp at hn
    | n + 1 =>
      have h0 := h 0 (by simp)
      simp only [Nat.add_zero, List.getElem_cons_zero] at h0
      have hc := codeByte_of s a h0.1 (legal_top _ _ h0.1.1)
      obtain ⟨rest, h1, h2⟩ := ih n (a + 1) (by simpa using hn) (fun j hj => by
        have := h (j + 1) (by simpa using hj)
        simpa [Nat.add_assoc, Nat.add_comm 1 j] using this)
      have key : codeBytes s a (n + 1) = (b :: (codeBytes s (a + 1) n).1, (codeBytes s (a + 1) n).2) := by
        conv_lhs => rw [codeBytes]
        rw [hc, h0.2]
      refine ⟨rest, by rw [key, h1]; rfl, ?_⟩
      rw [key, h2]
      simp [Nat.add_assoc, Nat.add_comm 1 t.length]

/-- A step that answers a next state decoded an instruction and ran it. -/
theorem step_next {s t : State} (h : step s = .next t) : ∃ i rest, decode s.mode (window s).1 = .ok i rest ∧ exec i
  s = .next t := by
  unfold step at h
  split at h
  · rename_i i hf
    unfold fetch at hf
    split at hf
    · rename_i j rest hd; cases hf; exact ⟨_, rest, hd, h⟩
    · exact nomatch hf
    · exact nomatch hf
    · split at hf <;> exact nomatch hf
  · rename_i e _; cases e <;> exact nomatch h
  · exact nomatch h

theorem codeBytes_len (s : State) (n a : Nat) : (codeBytes s a n).1.length ≤ n := by
  induction n generalizing a with
  | zero => simp [codeBytes]
  | succ n ih =>
    rw [codeBytes]
    split
    · simp; exact ih (a + 1)
    · simp
    · simp

end Sys2Proof.Machine
end

