-- ==== Sys2Proof/Laws/Memory.lean ====
section
/-! SUPPORT. Memory: the canonical form, and reading after writing. -/

namespace Sys2Proof.Machine

/-- Below the first listed address every byte is the unlisted one. -/
theorem readByte_of_lt (m : Memory) (lo a : Nat) (h : Memory.wfFrom lo m = true) (ha : a < lo) :
    readByte m a = unlistedByte := by
  induction m generalizing lo with
  | nil => rfl
  | cons c t ih =>
    obtain ⟨a', b'⟩ := c
    simp only [Memory.wfFrom, Bool.and_eq_true, decide_eq_true_eq] at h
    have hne : a' ≠ a := by omega
    simp only [readByte, hne, if_false]
    exact ih (a' + 1) h.2 (by omega)

/-- The canonical form does not depend on a lower start. -/
theorem wfFrom_mono (m : Memory) (lo lo' : Nat) (h : Memory.wfFrom lo m = true) (hl : lo' ≤ lo) :
    Memory.wfFrom lo' m = true := by
  cases m with
  | nil => rfl
  | cons c t =>
    obtain ⟨a', b'⟩ := c
    simp only [Memory.wfFrom, Bool.and_eq_true, decide_eq_true_eq] at h ⊢
    exact ⟨⟨by omega, h.1.2⟩, h.2⟩

/-- A write at or above the start keeps the canonical form. -/
theorem wfFrom_writeByte (m : Memory) (lo a : Nat) (b : Byte) (h : Memory.wfFrom lo m = true) (ha : lo ≤ a) :
    Memory.wfFrom lo (writeByte m a b) = true := by
  induction m generalizing lo with
  | nil => by_cases hb : b = unlistedByte <;> simp [writeByte, Memory.wfFrom, hb, ha]
  | cons c t ih =>
    obtain ⟨a', b'⟩ := c
    have h0 := h
    simp only [Memory.wfFrom, Bool.and_eq_true, decide_eq_true_eq] at h
    simp only [writeByte]
    split
    · split
      · exact h0
      · rename_i hlt hb
        simp only [Memory.wfFrom, Bool.and_eq_true, decide_eq_true_eq]
        exact ⟨⟨ha, by simpa using hb⟩, ⟨by omega, h.1.2⟩, h.2⟩
    · split
      · split
        · exact wfFrom_mono t (a' + 1) lo h.2 (by omega)
        · rename_i _ heq hb
          subst heq
          simp only [Memory.wfFrom, Bool.and_eq_true, decide_eq_true_eq]
          exact ⟨⟨ha, by simpa using hb⟩, h.2⟩
      · simp only [Memory.wfFrom, Bool.and_eq_true, decide_eq_true_eq]
        exact ⟨⟨h.1.1, h.1.2⟩, ih (a' + 1) h.2 (by omega)⟩

/-- Writing one byte keeps the canonical form of memory. -/
theorem wf_writeByte (m : Memory) (a : Nat) (b : Byte) (h : Memory.wf m = true) :
    Memory.wf (writeByte m a b) = true :=
  wfFrom_writeByte m 0 a b h (Nat.zero_le a)

/-- Writing bytes keeps the canonical form of memory. -/
theorem wf_writeBytes (m : Memory) (a : Nat) (bs : List Byte) (h : Memory.wf m = true) :
    Memory.wf (writeBytes m a bs) = true := by
  induction bs generalizing m a with
  | nil => exact h
  | cons b bs ih => exact ih (writeByte m a b) (a + 1) (wf_writeByte m a b h)

end Sys2Proof.Machine
end

