-- ==== Sys2Proof/Tests/Slice0.lean ====
section
/-! SUPPORT. Tests. Expected values are those of spec/95_test_vectors.md (its section or row is named in each comment) or
are written out from the rule named; witnesses give states that meet the hypotheses of the statements. -/

namespace Sys2Proof.Tests

open Sys2Proof.Machine

/-! ### Ill-formed terms that WellFormed refuses, one for each check -/

/-- R42: F-SSE without `66`. -/
theorem test_wf_sse_needs_66 : (Instr.pmuldq [] none 0 (.reg false 1)).wf .mode64 = false := by decide
/-- R64: F-SSE with `F2`, `F3`; R65: with LOCK. -/
theorem test_wf_sse_forbids :
    (Instr.pmuldq [.opSize, .repne] none 0 (.reg false 1)).wf .mode64 = false ∧
    (Instr.pmuldq [.opSize, .rep] none 0 (.reg false 1)).wf .mode64 = false ∧
    (Instr.pmuldq [.lock, .opSize] none 0 (.reg false 1)).wf .mode64 = false := by decide
/-- R43: REX outside 64-bit mode, and registers or extension bits that need a REX prefix without one. -/
theorem test_wf_sse_rex :
    (Instr.pmuldq [.opSize] (some false) 0 (.reg false 1)).wf .mode32 = false ∧
    (Instr.pmuldq [.opSize] none 8 (.reg false 1)).wf .mode64 = false ∧
    (Instr.pmuldq [.opSize] none 0 (.reg false 9)).wf .mode64 = false ∧
    (Instr.pmuldq [.opSize] none 0 (.reg true 1)).wf .mode64 = false := by decide
/-- R65: prefixes that may not stand before VEX; R48: registers above 7 outside 64-bit mode. -/
theorem test_wf_vex :
    (Instr.vpmuldqVex128 [.opSize] false 1 2 (.reg false 3)).wf .mode64 = false ∧
    (Instr.vpmuldqVex128 [.repne] false 1 2 (.reg false 3)).wf .mode64 = false ∧
    (Instr.vpmuldqVex256 [.rep] false 1 2 (.reg false 3)).wf .mode64 = false ∧
    (Instr.vpmuldqVex256 [.lock] false 1 2 (.reg false 3)).wf .mode64 = false ∧
    (Instr.vpmuldqVex128 [] false 8 2 (.reg false 3)).wf .mode32 = false ∧
    (Instr.vpmuldqVex128 [] false 1 8 (.reg false 3)).wf .mode32 = false ∧
    (Instr.vpmuldqVex128 [] false 1 2 (.reg false 8)).wf .mode32 = false := by decide
/-- R53: `k0` is no writemask; R65, R48 for EVEX. -/
theorem test_wf_evex :
    (Instr.vpmuldqEvex128 [] 1 2 (.merge 0) (.rm (.reg false 3))).wf .mode64 = false ∧
    (Instr.vpmuldqEvex128 [] 1 2 (.zero 0) (.rm (.reg false 3))).wf .mode64 = false ∧
    (Instr.vpmuldqEvex256 [.opSize] 1 2 .none (.rm (.reg false 3))).wf .mode64 = false ∧
    (Instr.vpmuldqEvex512 [] 16 2 .none (.rm (.reg false 3))).wf .mode32 = false ∧
    (Instr.vpmuldqEvex512 [] 1 16 .none (.rm (.reg false 3))).wf .mode32 = false ∧
    (Instr.vpmuldqEvex512 [] 1 2 .none (.rm (.reg true 3))).wf .mode32 = false := by decide
/-- R57, R60: addresses that ModRM and SIB cannot spell. -/
theorem test_wf_addr :
    Addr.wf .a64 (.base false 4 .none) = false ∧ Addr.wf .a64 (.base false 12 (.d8 0)) = false ∧
    Addr.wf .a64 (.base false 5 .none) = false ∧ Addr.wf .a64 (.sib 0 none 13 .none) = false ∧
    Addr.wf .a64 (.sib 0 (some 4) 0 .none) = false ∧ Addr.wf .a64 (.sibNoBase false 0 (some 4) 0) = false ∧
    Addr.wf .a16 (.base false 0 .none) = false ∧ Addr.wf .a16 (.sib 0 none 0 .none) = false ∧
    Addr.wf .a16 (.sibNoBase false 0 none 0) = false ∧ Addr.wf .a16 (.disp32 false false 0) = false ∧
    Addr.wf .a32 (.addr16 0 0) = false ∧ Addr.wf .a16 (.addr16 3 0) = false := by decide
/-- R41: longer than 15 bytes, though its fields are well formed. -/
theorem test_wf_length :
    (Instr.vpmuldqVex128 (List.replicate 11 .cs) false 1 2 (.reg false 3)).wf .mode64 = false ∧
    (Instr.vpmuldqVex128 (List.replicate 11 .cs) false 1 2 (.reg false 3)).wfFields .mode64 = true ∧
    (Instr.vpmuldqVex128 (List.replicate 10 .cs) false 1 2 (.reg false 3)).wf .mode64 = true := by decide

/-! ### Decoding words written out from the encoding (section 2.4) -/

/-- F-SSE rows: no REX, REX between `66` and `0F`, `disp8` unscaled, SIB. -/
theorem test_decode_pmuldq :
    decode .mode64 [0x66, 0x0F, 0x38, 0x28, 0xD1] = .ok (.pmuldq [.opSize] none 2 (.reg false 1)) [] ∧
    decode .mode64 [0x66, 0x45, 0x0F, 0x38, 0x28, 0xCA] = .ok (.pmuldq [.opSize] (some false) 9 (.reg false 10)) [] ∧
    decode .mode64 [0x66, 0x48, 0x0F, 0x38, 0x28, 0xC1] = .ok (.pmuldq [.opSize] (some true) 0 (.reg false 1)) [] ∧
    decode .mode64 [0x66, 0x0F, 0x38, 0x28, 0x4B, 0x10] =
      .ok (.pmuldq [.opSize] none 1 (.mem (.base false 3 (.d8 0x10)))) [] ∧
    decode .mode64 [0x66, 0x0F, 0x38, 0x28, 0x5C, 0x8C, 0x20] =
      .ok (.pmuldq [.opSize] none 3 (.mem (.sib 2 (some 1) 4 (.d8 0x20)))) [] := by decide
/-- F-VEX128 rows: high registers, RIP-relative. -/
theorem test_decode_vex128 :
    decode .mode64 [0xC4, 0xE2, 0x71, 0x28, 0xD1] = .ok (.vpmuldqVex128 [] false 2 1 (.reg false 1)) [] ∧
    decode .mode64 [0xC4, 0xE2, 0xE9, 0x28, 0xCB] = .ok (.vpmuldqVex128 [] true 1 2 (.reg false 3)) [] ∧
    decode .mode64 [0xC4, 0x42, 0x31, 0x28, 0xC2] = .ok (.vpmuldqVex128 [] false 8 9 (.reg false 10)) [] ∧
    decode .mode64 [0xC4, 0xE2, 0x69, 0x28, 0x0D, 0x00, 0x01, 0x00, 0x00] =
      .ok (.vpmuldqVex128 [] false 1 2 (.mem (.disp32 false false 0x100))) [] := by decide
/-- F-VEX256 rows: `[r12]` needs SIB, `[r13]` needs `disp8`. -/
theorem test_decode_vex256 :
    decode .mode64 [0xC4, 0xE2, 0x7D, 0x28, 0x10] = .ok (.vpmuldqVex256 [] false 2 0 (.mem (.base false 0 .none))) [] ∧
    decode .mode64 [0xC4, 0x42, 0x15, 0x28, 0x24, 0x24] =
      .ok (.vpmuldqVex256 [] false 12 13 (.mem (.sib 0 none 12 .none))) [] ∧
    decode .mode64 [0xC4, 0x42, 0x15, 0x28, 0x65, 0x00] =
      .ok (.vpmuldqVex256 [] false 12 13 (.mem (.base false 13 (.d8 0)))) [] := by decide
/-- F-EVEX128 rows. -/
theorem test_decode_evex128 :
    decode .mode64 [0x62, 0xF2, 0xED, 0x09, 0x28, 0xCB] = .ok (.vpmuldqEvex128 [] 1 2 (.merge 1) (.rm (.reg false 3))) [] ∧
    decode .mode64 [0x62, 0xF2, 0xED, 0x18, 0x28, 0x48, 0x01] =
      .ok (.vpmuldqEvex128 [] 1 2 .none (.bcst (.base false 0 (.d8 1)))) [] ∧
    decode .mode64 [0x62, 0xF2, 0xED, 0x9B, 0x28, 0x09] =
      .ok (.vpmuldqEvex128 [] 1 2 (.zero 3) (.bcst (.base false 1 .none))) [] := by decide
/-- F-EVEX256 rows. -/
theorem test_decode_evex256 :
    decode .mode64 [0x62, 0xF2, 0xF5, 0x2A, 0x28, 0xC9] = .ok (.vpmuldqEvex256 [] 1 1 (.merge 2) (.rm (.reg false 1))) [] ∧
    decode .mode64 [0x62, 0xF2, 0xED, 0xAA, 0x28, 0x48, 0x02] =
      .ok (.vpmuldqEvex256 [] 1 2 (.zero 2) (.rm (.mem (.base false 0 (.d8 2))))) [] ∧
    decode .mode64 [0x62, 0xF2, 0xD5, 0x3F, 0x28, 0x62, 0x01] =
      .ok (.vpmuldqEvex256 [] 4 5 (.merge 7) (.bcst (.base false 2 (.d8 1)))) [] := by decide
/-- F-EVEX512 rows: `disp32` unscaled, and the one with all four extension bits. -/
theorem test_decode_evex512 :
    decode .mode64 [0x62, 0xF2, 0xED, 0x48, 0x28, 0x88, 0x41, 0x00, 0x00, 0x00] =
      .ok (.vpmuldqEvex512 [] 1 2 .none (.rm (.mem (.base false 0 (.d32 0x41))))) [] ∧
    decode .mode64 [0x62, 0xF2, 0xE5, 0x58, 0x28, 0x1F] =
      .ok (.vpmuldqEvex512 [] 3 3 .none (.bcst (.base false 7 .none))) [] ∧
    decode .mode64 [0x62, 0x02, 0x95, 0x45, 0x28, 0x74, 0xC8, 0x40] =
      .ok (.vpmuldqEvex512 [] 30 29 (.merge 5) (.rm (.mem (.sib 3 (some 9) 8 (.d8 0x40))))) [] := by decide
/-- The Mode32 rows. -/
theorem test_decode_mode32 :
    decode .mode32 [0x66, 0x0F, 0x38, 0x28, 0x08] = .ok (.pmuldq [.opSize] none 1 (.mem (.base false 0 .none))) [] ∧
    decode .mode32 [0xC4, 0xE2, 0x4D, 0x28, 0x7C, 0x73, 0x08] =
      .ok (.vpmuldqVex256 [] false 7 6 (.mem (.sib 1 (some 6) 3 (.d8 8)))) [] ∧
    decode .mode32 [0x62, 0xF2, 0xED, 0xD9, 0x28, 0x08] =
      .ok (.vpmuldqEvex512 [] 1 2 (.zero 1) (.bcst (.base false 0 .none))) [] := by decide
/-- Section 2.5: encodings that raise #UD. -/
theorem test_decode_invalid :
    decode .mode64 [0x62, 0xF2, 0xED, 0x18, 0x28, 0xCB] = .invalid ∧
    decode .mode64 [0x62, 0xF2, 0x6D, 0x08, 0x28, 0xCB] = .invalid ∧
    decode .mode64 [0x62, 0xF2, 0xED, 0x88, 0x28, 0xCB] = .invalid ∧
    decode .mode64 [0x62, 0xF2, 0xED, 0x68, 0x28, 0xCB] = .invalid ∧
    decode .mode64 [0xF0, 0x66, 0x0F, 0x38, 0x28, 0x08] = .invalid ∧
    decode .mode64 [0x66, 0xC4, 0xE2, 0x69, 0x28, 0xCB] = .invalid := by decide
/-- Section 2.5: byte strings that are refused; R48: `B` set outside 64-bit mode. -/
theorem test_decode_refused :
    decode .mode64 [0xC5, 0xE9, 0x28, 0xCB] = .refuse .notThisInstruction ∧
    decode .mode64 [0x0F, 0x38, 0x28, 0xC1] = .refuse .notThisInstruction ∧
    decode .mode64 [0xF3, 0x66, 0x0F, 0x38, 0x28, 0xC1] = .refuse .repeatPrefix ∧
    decode .mode64 [0x48, 0x66, 0x0F, 0x38, 0x28, 0xC1] = .refuse .notThisInstruction ∧
    decode .mode32 [0xC4, 0xC2, 0x69, 0x28, 0xCB] = .refuse .extensionBits := by decide
/-- The six words of spec/opcode_table.json are six instructions. -/
theorem test_decode_table_words :
    (decodeTableWord 32 0x660F3828).map Instr.form = some .sse ∧
    (decodeTableWord 32 0xC4020128).map Instr.form = some .vex128 ∧
    (decodeTableWord 32 0xC4020528).map Instr.form = some .vex256 ∧
    (decodeTableWord 40 0x6202850028).map Instr.form = some .evex128 ∧
    (decodeTableWord 40 0x6202852028).map Instr.form = some .evex256 ∧
    (decodeTableWord 40 0x6202854028).map Instr.form = some .evex512 := by decide
/-- An encoded instruction, and its length (R62). -/
theorem test_encode :
    encode (.vpmuldqEvex512 [] 30 29 (.merge 5) (.rm (.mem (.sib 3 (some 9) 8 (.d8 0x40))))) =
      [0x62, 0x02, 0x95, 0x45, 0x28, 0x74, 0xC8, 0x40] ∧
    (Instr.vpmuldqVex128 [] false 1 2 (.mem (.disp32 false false 0x100))).length = 9 := by decide

/-! ### One step -/

/-- The launched machine at address 400H, every register zero. -/
def base : State := { launch State.reset with pc := 0x400#64 }

/-- `base` with three vector registers given. -/
def withV (x1 x2 x3 : Vec) : State := { base with v := ((base.v.set 1 x1).set 2 x2).set 3 x3 }

/-- The state with a value in rax. -/
def withRax (a : Qword) (s : State) : State := { s with gpr := s.gpr.set 0 a }

/-- The state with a value in a mask register. -/
def withK (n : Fin 8) (q : Qword) (s : State) : State := { s with k := s.k.set n q }

/-- The state with bytes of memory. -/
def withBytes (a : Nat) (bs : List Byte) (s : State) : State := { s with mem := writeBytes s.mem a bs }

/-- The state where data can be read in 1000H to 1FFFH only; the code lies at 400H. -/
def onePage (s : State) : State :=
  { s with regions := [⟨0x400, 0x20, .ordinary, true⟩, ⟨0x1000, 0x1000, .ordinary, true⟩] }

/-- A step with these bytes at the instruction pointer. -/
def runs (s : State) (bs : List Byte) : Host.Outcome State Fault Refusal :=
  step { s with mem := writeBytes s.mem (fetchAddress s) bs }

/-- What a next state holds. -/
def nextGives {α : Type} (g : State → α) : Host.Outcome State Fault Refusal → Option α
  | .next t => some (g t)
  | .fault _ => none
  | .refused _ => none

/-- The fault of an outcome. -/
def faults : Host.Outcome State Fault Refusal → Option Fault
  | .next _ => none
  | .fault f => some f
  | .refused _ => none

/-- All ones. -/
def ones : Vec := Vector.replicate 8 0xFFFFFFFFFFFFFFFF#64

/-- Section 2.2, S1: the extreme products, odd doublewords without influence, upper bits kept, 5 bytes. -/
theorem test_pmuldq_S1 :
    nextGives (fun t => (t.v[1], t.pc))
      (runs (withV #v[0x222222227FFFFFFF, 0x1111111180000000, 0xBB, 0xAA, 0, 0, 0, 0]
        #v[0x444444447FFFFFFF, 0x3333333380000000, 1, 2, 3, 4, 5, 6] ones) [0x66, 0x0F, 0x38, 0x28, 0xCA]) =
      some (#v[0x3FFFFFFF00000001, 0x4000000000000000, 0xBB, 0xAA, 0, 0, 0, 0], 0x405#64) := by decide

/-- Section 2.2, S3: a memory operand, least significant byte first. -/
theorem test_pmuldq_S3 :
    nextGives (fun t => t.v[1])
      (runs (withBytes 0x2000 [7, 0, 0, 0, 9, 0, 0, 0, 0x18, 0xFC, 0xFF, 0xFF, 9, 0, 0, 0]
        (withRax 0x2000 (withV #v[0x9FFFFFFFD, 0x9000003E8, 0, 0, 0, 0, 0, 0] ones ones)))
        [0x66, 0x0F, 0x38, 0x28, 0x08]) =
      some #v[0xFFFFFFFFFFFFFFEB, 0xFFFFFFFFFFF0BDC0, 0, 0, 0, 0, 0, 0] := by decide

/-- Section 2.2, X2: W = 1, the old destination is lost completely. -/
theorem test_vex128_X2 :
    nextGives (fun t => t.v[1])
      (runs (withV ones #v[0x100010000, 0x2FFFF0000, 0, 0, 0, 0, 0, 7] #v[0x300010000, 0x400010000, 1, 1, 1, 1, 1, 1])
        [0xC4, 0xE2, 0xE9, 0x28, 0xCB]) =
      some #v[0x100000000, 0xFFFFFFFF00000000, 0, 0, 0, 0, 0, 0] := by decide

/-- Section 2.2, Y1. -/
theorem test_vex256_Y1 :
    nextGives (fun t => t.v[1])
      (runs (withV ones #v[0xA00000001, 0xBFFFFFFFF, 0xC7FFFFFFF, 0xD80000000, 9, 9, 9, 9]
        #v[0xEFFFFFFFF, 0xFFFFFFFFF, 0x1000000002, 0x1100000002, 9, 9, 9, 9]) [0xC4, 0xE2, 0x6D, 0x28, 0xCB]) =
      some #v[0xFFFFFFFFFFFFFFFF, 1, 0xFFFFFFFE, 0xFFFFFFFF00000000, 0, 0, 0, 0] := by decide

/-- The registers of section 2.2, F-EVEX128. -/
def evexStart : State :=
  withV #v[0xD0D0D0D0D0D0D0D0, 0xD1D1D1D1D1D1D1D1, 0xD2D2D2D2D2D2D2D2, 0xD3D3D3D3D3D3D3D3, 0, 0, 0, 0]
    #v[3, 0xFFFFFFFB, 0, 0, 0, 0, 0, 0] #v[0xFFFFFFF9, 0xFFFFFFF7, 0, 0, 0, 0, 0, 0]

/-- Section 2.2, V3: merging keeps the first element and zeroes the bits above 128. -/
theorem test_evex128_V3 :
    nextGives (fun t => t.v[1]) (runs (withK 1 2 evexStart) [0x62, 0xF2, 0xED, 0x09, 0x28, 0xCB]) =
      some #v[0xD0D0D0D0D0D0D0D0, 0x2D, 0, 0, 0, 0, 0, 0] := by decide

/-- Section 2.2, V10: broadcast, `disp8` scaled by 8. -/
theorem test_evex128_V10 :
    nextGives (fun t => t.v[1])
      (runs (withBytes 0x3008 [0xFE, 0xFF, 0xFF, 0xFF, 0x0D, 0xF0, 0xFE, 0xCA] (withRax 0x3000 evexStart))
        [0x62, 0xF2, 0xED, 0x18, 0x28, 0x48, 0x01]) =
      some #v[0xFFFFFFFFFFFFFFFA, 0xA, 0, 0, 0, 0, 0, 0] := by decide

/-- Section 2.2, W3: zeroing and broadcast. -/
theorem test_evex256_W3 :
    nextGives (fun t => t.v[1])
      (runs (withBytes 0x3000 [0xFE, 0xFF, 0xFF, 0xFF, 0x0D, 0xF0, 0xFE, 0xCA] (withRax 0x3000 (withK 2 6
        (withV evexStart.v[1] #v[0x9900000001, 0x9900000002, 0x99FFFFFFFD, 0x9980000000, 0, 0, 0, 0] ones))))
        [0x62, 0xF2, 0xED, 0xBA, 0x28, 0x08]) =
      some #v[0, 0xFFFFFFFFFFFFFFFC, 6, 0, 0, 0, 0, 0] := by decide

/-- Section 2.2, Z2: a mask over eight elements. -/
theorem test_evex512_Z2 :
    nextGives (fun t => t.v[1])
      (runs (withK 1 0xA5 (withV #v[0xEEEEEEEE00000000, 0xEEEEEEEE00000001, 0xEEEEEEEE00000002, 0xEEEEEEEE00000003,
          0xEEEEEEEE00000004, 0xEEEEEEEE00000005, 0xEEEEEEEE00000006, 0xEEEEEEEE00000007]
        #v[1, 2, 3, 4, 5, 6, 7, 8]
        #v[0x55FFFFFFFF, 0x55FFFFFFFE, 0x55FFFFFFFD, 0x55FFFFFFFC, 0x55FFFFFFFB, 0x55FFFFFFFA, 0x55FFFFFFF9,
          0x55FFFFFFF8])) [0x62, 0xF2, 0xED, 0x49, 0x28, 0xCB]) =
      some #v[0xFFFFFFFFFFFFFFFF, 0xEEEEEEEE00000001, 0xFFFFFFFFFFFFFFF7, 0xEEEEEEEE00000003, 0xEEEEEEEE00000004,
        0xFFFFFFFFFFFFFFDC, 0xEEEEEEEE00000006, 0xFFFFFFFFFFFFFFC0] := by decide

/-- Section 2.3, E1: misaligned; E2: a VEX form completes there. -/
theorem test_E1_E2 :
    faults (runs (onePage (withRax 0x1008 base)) [0x66, 0x0F, 0x38, 0x28, 0x08]) = some (.gp0 0x400) ∧
    nextGives (fun t => t.pc) (runs (onePage (withRax 0x1008 base)) [0xC4, 0xE2, 0x69, 0x28, 0x08]) = some 0x405 := by decide

/-- Section 2.3, E3: the last 16 bytes of the range; E4: 32 bytes there run out of it. -/
theorem test_E3_E4 :
    nextGives (fun t => t.pc) (runs (onePage (withRax 0x1FF0 base)) [0x66, 0x0F, 0x38, 0x28, 0x08]) = some 0x405 ∧
    faults (runs (onePage (withRax 0x1FF0 base)) [0xC4, 0xE2, 0x7D, 0x28, 0x10]) = some (.pf 0x400) := by decide

/-- Section 2.3, E5: a broadcast reads 8 bytes; E7: an all-zero mask does not suppress the fault (R30). -/
theorem test_E5_E7 :
    nextGives (fun t => t.pc) (runs (onePage (withRax 0x1FF8 base)) [0x62, 0xF2, 0xED, 0x58, 0x28, 0x08]) = some 0x406 ∧
    faults (runs (onePage (withRax 0x5000 base)) [0x62, 0xF2, 0xED, 0x49, 0x28, 0x08]) = some (.pf 0x400) := by decide

/-- Section 2.3, E8 and E9: an address that is not canonical, #GP(0), and #SS(0) with base RSP. -/
theorem test_E8_E9 :
    faults (runs (withRax 0x800000000000 base) [0x66, 0x0F, 0x38, 0x28, 0x08]) = some (.gp0 0x400) ∧
    faults (runs { base with gpr := base.gpr.set 4 0x800000000000 } [0x66, 0x0F, 0x38, 0x28, 0x5C, 0x8C, 0x20]) =
      some (.ss0 0x400) ∧
    faults (runs { base with gpr := base.gpr.set 4 0x800000000001 } [0x66, 0x0F, 0x38, 0x28, 0x5C, 0x8C, 0x20]) =
      some (.gp0 0x400) := by decide

/-- Section 2.3, E11: AVX512VL is missing for 128 bits, not for 512. -/
theorem test_E11 :
    faults (runs { base with cpu := ⟨.vl512, ⟨true, true, true, true, false⟩⟩ } [0x62, 0xF2, 0xED, 0x09, 0x28, 0xCB]) =
      some (.ud 0x400) ∧
    nextGives (fun t => t.pc)
      (runs { base with cpu := ⟨.vl512, ⟨true, true, true, true, false⟩⟩ } [0x62, 0xF2, 0xED, 0x49, 0x28, 0xCB]) =
      some 0x406 := by decide

/-- Section 2.3, E12 and E13: CR0.TS is 8; CR0.EM is 4; #UD before #NM. -/
theorem test_E12_E13 :
    faults (runs { base with cr0 := base.cr0 ||| 8 } [0x66, 0x0F, 0x38, 0x28, 0xC1]) = some (.nm 0x400) ∧
    faults (runs { base with cr0 := base.cr0 ||| 12 } [0x66, 0x0F, 0x38, 0x28, 0xC1]) = some (.ud 0x400) := by decide

/-- Section 2.3, E15 and E16: forbidden prefixes. -/
theorem test_E15_E16 :
    faults (runs base [0xF0, 0x66, 0x0F, 0x38, 0x28, 0x08]) = some (.ud 0x400) ∧
    faults (runs base [0x66, 0xC4, 0xE2, 0x69, 0x28, 0xCB]) = some (.ud 0x400) := by decide

/-- A word of the opcode table placed by `withFetchWord` runs at the reset address (R132). -/
theorem test_withFetchWord :
    nextGives (fun t => t.pc) (step (State.reset.withFetchWord 32 0x660F3828)) = some 0xFFF5 ∧
    nextGives (fun t => t.pc) (step (State.reset.withFetchWord 40 0x6202854028)) = some 0xFFF6 := by decide

/-! ### Witnesses: concrete states and operands that meet the hypotheses of each statement -/

/-- The base state in 32-bit mode. -/
def base32 : State := { base with mode := .mode32 }

/-- The address `[rax]`. -/
def atRax : Addr := .base false 0 .none

def sseReg : Instr := .pmuldq [.opSize] none 1 (.reg false 2)
def sseMem : Instr := .pmuldq [.opSize] none 1 (.mem atRax)
def vexReg : Instr := .vpmuldqVex128 [] false 1 2 (.reg false 3)
def vexMem : Instr := .vpmuldqVex128 [] false 1 2 (.mem atRax)
def evexMerge : Instr := .vpmuldqEvex128 [] 1 2 (.merge 1) (.rm (.reg false 3))
def evexBcst : Instr := .vpmuldqEvex512 [] 1 2 .none (.bcst atRax)

/-- The three encodings of a register form are available in `base`, and the next address fits. -/
theorem witness_ready :
    (Ready .sse base ∧ NextFits sseReg.length base) ∧ (Ready .vex128 base ∧ NextFits vexReg.length base) ∧
    (Ready .evex128 base ∧ NextFits evexMerge.length base) ∧ Ready .vex256 base ∧ Ready .evex256 base ∧
    Ready .evex512 base ∧ base.cpu.admissible = true := by
  unfold Ready NextFits; decide

theorem witness_PackedMulMultipliesEvenDoublewords :
    ∃ x x' : Vec, x ≠ x' ∧ ∀ j, j < 2 → (vecBits x').extractLsb' (64 * j) 32 = (vecBits x).extractLsb' (64 * j) 32 :=
  ⟨Vector.replicate 8 1, Vector.replicate 8 0x100000001, by decide, by decide⟩

theorem witness_MemReadIsLittleEndian : readVec [(4, 7), (5, 1)] 0 1 = #v[0x10700000000, 0, 0, 0, 0, 0, 0, 0] := by
  decide

/-- F-SSE from a register and from memory at a multiple of 16. -/
theorem witness_PmuldqCompletesWithProducts :
    SourceGives base .sse [.opSize] sseReg.length (.rm (.reg false 2)) (fun _ => 0) ∧
    SourceGives (withRax 0x1FF0 base) .sse [.opSize] sseMem.length (.rm (.mem atRax)) (fun _ => 0) := by
  refine ⟨by unfold SourceGives; decide, 0x1FF0, ⟨by decide, by decide, ?_⟩, by decide⟩
  unfold BytesReadable ByteReadable; decide

/-- F-VEX128 from a register and from misaligned memory. -/
theorem witness_VpmuldqVex128CompletesWithProducts :
    SourceGives base .vex128 [] vexReg.length (.rm (.reg false 3)) (fun _ => 0) ∧
    SourceGives (withRax 0x1008 base) .vex128 [] vexMem.length (.rm (.mem atRax)) (fun _ => 0) := by
  refine ⟨by unfold SourceGives; decide, 0x1008, ⟨by decide, by decide, ?_⟩, by decide⟩
  unfold BytesReadable ByteReadable; decide

theorem witness_VpmuldqVex256CompletesWithProducts :
    Ready .vex256 base ∧ NextFits 5 base ∧ SourceGives base .vex256 [] 5 (.rm (.mem atRax)) (fun _ => 0) := by
  refine ⟨⟨rfl, rfl, rfl, rfl⟩, by unfold NextFits; decide, 0, ⟨by decide, by decide, ?_⟩, by decide⟩
  unfold BytesReadable ByteReadable; decide

theorem witness_VpmuldqEvex128CompletesUnderMask :
    SourceGives base .evex128 [] 6 (.rm (.reg false 3)) (fun _ => 0) ∧
    SourceGives base .evex128 [] 6 (.bcst atRax) (fun _ => 0) := by
  refine ⟨by unfold SourceGives; decide, 0, ⟨by decide, by decide, ?_⟩, by decide⟩
  unfold BytesReadable ByteReadable; decide

theorem witness_VpmuldqEvex256CompletesUnderMask :
    Ready .evex256 base ∧ NextFits 6 base ∧ SourceGives base .evex256 [] 6 (.rm (.mem atRax)) (fun _ => 0) := by
  refine ⟨⟨rfl, rfl, rfl, rfl⟩, by unfold NextFits; decide, 0, ⟨by decide, by decide, ?_⟩, by decide⟩
  unfold BytesReadable ByteReadable; decide

/-- A register and, at the last 64 bytes below 2^47, a memory operand. -/
theorem witness_VpmuldqEvex512CompletesUnderMask :
    SourceGives base .evex512 [] 6 (.rm (.reg true 3)) (fun _ => 0) ∧
    SourceGives (withRax 0x7FFFFFFFFFC0 base) .evex512 [] 6 (.rm (.mem atRax)) (fun _ => 0) := by
  refine ⟨by unfold SourceGives; decide, 0x7FFFFFFFFFC0, ⟨by decide, by decide, ?_⟩, by decide⟩
  unfold BytesReadable ByteReadable; decide

/-- A form that completes, also on a processor with 128-bit registers. -/
theorem witness_PmuldqKeepsUpperBits :
    (∃ t, exec sseReg base = .next t) ∧
    ∃ t, exec sseReg { base with cpu := ⟨.vl128, ⟨true, false, false, false, false⟩⟩ } = .next t :=
  ⟨⟨_, rfl⟩, _, rfl⟩

theorem witness_PmuldqSameRegisterSquares : Ready .sse base ∧ NextFits 5 base := by
  unfold Ready NextFits; decide

/-- Both clauses: an aligned operand, and a misaligned one that F-VEX128 can read. -/
theorem witness_PmuldqAgreesWithVex128 :
    SourceGives base .sse [.opSize] 5 (.rm (.mem atRax)) (fun _ => 0) ∧
    SourceGives base .vex128 [] 5 (.rm (.mem atRax)) (fun _ => 0) ∧
    linearAddress (withRax 0x1008 base) [.opSize] 1 5 atRax = some 0x1008 ∧
    SourceGives (withRax 0x1008 base) .vex128 [] 5 (.rm (.mem atRax)) (fun _ => 0) := by
  refine ⟨⟨0, ⟨by decide, by decide, ?_⟩, by decide⟩, ⟨0, ⟨by decide, by decide, ?_⟩, by decide⟩, by decide,
    0x1008, ⟨by decide, by decide, ?_⟩, by decide⟩ <;> unfold BytesReadable ByteReadable <;> decide

/-- Merging with an all-zero mask completes. -/
theorem witness_EvexZeroesBitsAboveVl :
    (∃ t, exec evexMerge base = .next t) ∧ ∀ j, j < evexMerge.form.kl → (readK base 1).getLsbD j = false :=
  ⟨⟨_, rfl⟩, by decide⟩

theorem witness_ZeroingMaskIgnoresOldDestination :
    (∃ t, exec (.vpmuldqEvex256 [] 1 2 (.zero 1) (.rm (.reg false 3))) base = .next t) ∧
    (∀ j, j < 4 → (readK base 1).getLsbD j = false) ∧ ext5 false 3 ≠ 1 :=
  ⟨⟨_, rfl⟩, by decide, by decide⟩

/-- The mask register with other bits from KL on. -/
theorem witness_MaskBitsAboveKlAreIgnored :
    (∃ t, exec evexMerge base = .next t) ∧
    ∀ j, j < evexMerge.form.kl → (0xFFFFFFFFFFFFFFFC#64).getLsbD j = (readK base 1).getLsbD j :=
  ⟨⟨_, rfl⟩, by decide⟩

/-- Exactly the bits that count, for each length. -/
theorem witness_FullMaskEqualsNoMask :
    (∀ j, j < 2 → (readK (withK 1 3 base) 1).getLsbD j = true) ∧
    (∀ j, j < 4 → (readK (withK 1 15 base) 1).getLsbD j = true) ∧
    (∀ j, j < 8 → (readK (withK 1 255 base) 1).getLsbD j = true) := by decide

theorem witness_UnmaskedEvexEqualsVex :
    SourceGives base .vex256 [] 5 (.rm (.reg false 3)) (fun _ => 0) ∧
    SourceGives base .evex256 [] 6 (.rm (.reg false 3)) (fun _ => 0) ∧ Ready .vex256 base ∧ Ready .evex256 base ∧
    NextFits 5 base ∧ NextFits 6 base := by
  unfold SourceGives Ready NextFits; decide

/-- The last 8 bytes of the range complete; with the last 4 the other four cannot be read. -/
theorem witness_BroadcastUsesLowDoublewordOnly :
    linearAddress (onePage (withRax 0x1FF8 base)) [] 8 evexBcst.length atRax = some 0x1FF8 ∧
    (∃ t, exec evexBcst (onePage (withRax 0x1FF8 base)) = .next t) ∧
    linearAddress (onePage (withRax 0x1FFC base)) [] 8 evexBcst.length atRax = some 0x1FFC ∧
    (∀ o, o < 8 → legalAddr .mode64 (0x1FFC + o) = true) ∧
    pageAnswer (onePage (withRax 0x1FFC base)) (0x1FFC + 4) = .notReadable :=
  ⟨by decide, ⟨_, rfl⟩, by decide, by decide, by decide⟩

/-- Two states with other odd doublewords. -/
theorem witness_OddDoublewordsHaveNoInfluence :
    (∃ t, exec vexReg (withV ones #v[5, 5, 5, 5, 5, 5, 5, 5] ones) = .next t) ∧
    ∀ j, j < 8 → evenOf (withV ones #v[0x700000005, 5, 5, 5, 5, 5, 5, 5] ones) 2 j =
      evenOf (withV ones #v[5, 5, 5, 5, 5, 5, 5, 5] ones) 2 j :=
  ⟨⟨_, rfl⟩, by decide⟩

theorem witness_EnablingBits : isEvex .evex256 = true ∧ osEnabled .evex256 base = true := by decide

/-- A step that faults. -/
theorem witness_FaultVectorsAndAddress : step State.reset = .fault (.pf 0xFFF0) := by rfl

theorem witness_MisalignedPmuldqRaisesGp :
    Ready .sse base ∧ linearAddress (withRax 15 base) [.opSize] 1 sseMem.length atRax = some 15 := by
  unfold Ready; decide

/-- The first address that is not canonical, at the end of an operand that begins below it: by default with the stack
segment (base rsp) and without (base rax). -/
theorem witness_IllegalOperandAddressFaults :
    memOperand vexMem = some (atRax, 1, 16) ∧
    linearAddress (withRax 0x7FFFFFFFFFF1 base) [] 1 vexMem.length atRax = some 0x7FFFFFFFFFF1 ∧
    legalAddr .mode64 (0x7FFFFFFFFFF1 + 14) = true ∧ legalAddr .mode64 (0x7FFFFFFFFFF1 + 15) = false ∧
    usesStack [] atRax = false ∧ usesStack [] (.sib 0 none 4 .none) = true ∧
    linearAddress { base with gpr := base.gpr.set 4 0x800000000000 } [] 1 6 (.sib 0 none 4 .none) = some 0x800000000000 ∧
    legalAddr .mode64 0x800000000000 = false := by decide

/-- A masked form whose last byte lies past the range. -/
theorem witness_UnreadableOperandByteRaisesPf :
    Ready .vex128 base ∧ HasOperandAt (onePage (withRax 0x1FF1 base)) vexMem 0x1FF1 16 ∧
    (∀ o, o < 16 → legalAddr .mode64 (0x1FF1 + o) = true) ∧
    pageAnswer (onePage (withRax 0x1FF1 base)) (0x1FF1 + 15) = .notReadable :=
  ⟨⟨rfl, rfl, rfl, rfl⟩, ⟨atRax, 1, by decide, by decide, by decide⟩, by decide, by decide⟩

/-- An operand that ends in a device range. -/
theorem witness_DeviceOperandIsRefused :
    HasOperandAt { base with regions := [⟨15, 1, .device, true⟩, ⟨0, 16, .ordinary, true⟩] } sseMem 0 16 ∧
    pageAnswer { base with regions := [⟨15, 1, .device, true⟩, ⟨0, 16, .ordinary, true⟩] } 15 = .device ∧
    ∀ o, o < 16 → pageAnswer { base with regions := [⟨15, 1, .device, true⟩, ⟨0, 16, .ordinary, true⟩] } o ≠
      .notReadable :=
  ⟨⟨atRax, 1, by decide, by decide, by decide⟩, by decide, by decide⟩

/-- 16-bit addressing in 32-bit mode, and F-SSE enabled in real-address mode. -/
theorem witness_SixteenBitAddressingAndOldModesRefused :
    decode .mode32 [0x67, 0x66, 0x0F, 0x38, 0x28, 0x08] =
      .ok (.pmuldq [.addrSize, .opSize] none 1 (.mem (.addr16 0 0))) [] ∧
    Ready .sse base32 ∧ memOperand (.pmuldq [.addrSize, .opSize] none 1 (.mem (.addr16 0 0))) = some (.addr16 0 0, 1, 16) ∧
    osEnabled .sse { base with mode := .realAddress } = true ∧
    taskSwitched { base with mode := .realAddress } = false := by
  unfold Ready; decide

/-- A register form that fits, and the last address it does not fit at. -/
theorem witness_RegisterFormsNeverFault :
    Ready .sse base ∧ memOperand sseReg = none ∧ NextFits sseReg.length base ∧
    NextFits sseReg.length { base with pc := 0xFFFFFFFFFFFFFFFA } ∧
    ¬ NextFits sseReg.length { base with pc := 0xFFFFFFFFFFFFFFFB } := by
  unfold Ready NextFits; decide

theorem witness_MemoryFormsCompleteExactlyWhenReadable :
    Ready .sse base ∧ memOperand sseMem = some (atRax, 1, 16) ∧
    linearAddress base sseMem.prefixes 1 sseMem.length atRax = some 0 := by
  unfold Ready; decide

/-- A form that completes and one that faults. -/
theorem witness_RegisterFormsIgnorePrivilegeLevel :
    memOperand sseReg = none ∧ (∃ t, exec sseReg base = .next t) ∧ ∃ f, exec sseReg State.reset = .fault f :=
  ⟨rfl, ⟨_, rfl⟩, _, rfl⟩

theorem witness_AddressTableIn64BitMode : base.mode = .mode64 ∧ ([] : List LegacyPrefix).contains .addrSize = false := by
  decide

/-- Both modes of 32-bit addressing, in every form of address; the sums wrap at 2^32. -/
theorem witness_AddressesOf32BitAddressing :
    base.mode = .mode64 ∧ base32.mode = .mode32 ∧
    effectiveAddress (withRax 0xFFFFFFFF base) [.addrSize] 1 6 (.base false 0 (.d8 1)) = some 0 ∧
    effectiveAddress (withRax 0xFFFFFFFF base32) [] 1 5 (.base false 0 (.d8 1)) = some 0 ∧
    effectiveAddress (withRax 0xFFFFFFFF base) [.addrSize] 1 7 (.sib 3 none 0 (.d8 1)) = some 0 ∧
    effectiveAddress (withRax 0x80000001 base) [.addrSize] 1 7 (.sib 1 (some 0) 0 (.d8 0xFF)) = some 0x80000002 ∧
    effectiveAddress base [.addrSize] 1 10 (.sibNoBase false 0 none 0xFFFFFFFF) = some 0xFFFFFFFF ∧
    effectiveAddress (withRax 0x40000000 base) [.addrSize] 1 10 (.sibNoBase false 2 (some 0) 5) = some 5 ∧
    effectiveAddress base [.addrSize] 1 10 (.disp32 false false 0xFFFFFBF6) = some 0 ∧
    effectiveAddress base32 [] 1 9 (.disp32 false false 0xFFFFFFFF) = some 0xFFFFFFFF := by decide

theorem witness_DisplacementScaling :
    memOperand evexBcst = some (atRax, 8, 8) ∧ memOperand vexMem = some (atRax, 1, 16) := by decide

/-- The state with an FS base. -/
def withFs (q : Qword) (s : State) : State := { s with fsBase := q }

/-- Overrides of every kind, among other prefixes and repeated; different ones together; both modes' linear address, where
the sum with the FS base passes the top; and base registers rsp, r12 and r13 with the stack segment, rax without. -/
theorem witness_SegmentOverrides :
    (overrideOf [.opSize] = none ∧ overrideOf [.cs] = some .cs ∧ overrideOf [.es, .opSize] = some .es ∧
      overrideOf [.fs, .opSize, .fs] = some .fs) ∧
    ((∃ p ∈ [LegacyPrefix.fs, .gs], p.seg ≠ none) ∧
      [LegacyPrefix.fs, .gs].map LegacyPrefix.seg = [some .fs, some .gs]) ∧
    (effectiveAddress base [.fs] 1 6 atRax = some 0 ∧
      effectiveAddress base32 [.addrSize] 1 6 (.addr16 0 4) = none ∧
      linearAddress (withRax 2 (withFs 0xFFFFFFFFFFFFFFFF base)) [.fs] 1 6 atRax = some 1 ∧
      linearAddress (withRax 2 (withFs 0xFFFFFFFF base)) [.fs] 1 6 atRax = some 0x100000001 ∧
      linearAddress (withRax 2 (withFs 0xFFFFFFFF base32)) [.fs] 1 6 atRax = some 1 ∧
      linearAddress (withRax 2 (withFs 0xFFFFFFFF base32)) [.es] 1 6 atRax = some 2) ∧
    (usesStack [.opSize] (.base false 13 (.d8 0)) = true ∧ usesStack [] (.sib 0 none 12 .none) = true ∧
      usesStack [] (.sib 0 none 4 .none) = true ∧ usesStack [] atRax = false ∧ usesStack [.ss] atRax = true ∧
      usesStack [.ds] (.sib 0 none 4 .none) = false) := by decide

/-- Well-formed instructions of 64-bit and of 32-bit mode. -/
theorem witness_DecodeOfEncodeIsIdentity :
    (Instr.vpmuldqEvex512 [] 31 29 (.zero 7) (.bcst (.sib 3 (some 15) 12 (.d8 0x80)))).wfFields .mode64 = true ∧
    (Instr.pmuldq [.opSize] (some true) 15 (.reg true 15)).wfFields .mode64 = true ∧
    vexMem.wfFields .mode32 = true ∧ sseMem.wfFields .realAddress = false := by decide

theorem witness_DecodedBytesAreAnEncoding :
    decode .mode64 [0xC4, 0xE2, 0x69, 0x28, 0xCB, 0xC4] = .ok vexReg [0xC4] := by decide

theorem witness_EncodingsArePrefixFree : vexReg.wfFields .mode32 = true ∧ 4 < (encode vexReg).length := by decide

theorem witness_RegistersNamedPerMode :
    decode .mode32 [0x66, 0x0F, 0x38, 0x28, 0xCA] = .ok sseReg [] ∧
    decode .mode32 [0xC4, 0xE2, 0x69, 0x28, 0xCB] = .ok vexReg [] ∧
    decode .mode32 [0x62, 0xF2, 0xED, 0x09, 0x28, 0xCB] = .ok evexMerge [] := by decide

theorem witness_VexVvvvNamesFirstSourceAndWIsIgnored :
    (0xE2#8).extractLsb' 0 5 = 2#5 ∧
    decode .mode64 (0xC4#8 :: 0xE2#8 :: (BitVec.ofBool true ++ ~~~2#4 ++ BitVec.ofBool false ++ 1#2) :: 0x28#8 :: [0xCB]) ≠
      .more ∧
    decode .mode64 (0xC4#8 :: 0xE2#8 :: (BitVec.ofBool false ++ ~~~15#4 ++ BitVec.ofBool true ++ 1#2) :: 0x28#8 :: [8]) ≠
      .more := by decide

theorem witness_IgnoredBitsHaveNoEffect : [LegacyPrefix.opSize, .fs].length = [LegacyPrefix.addrSize, .opSize].length := by
  decide

theorem witness_ForbiddenPrefixesAreInvalid :
    evexMerge.wfFields .mode64 = true ∧ evexMerge.form ≠ .sse ∧ evexMerge.prefixes = [] ∧ Rex.isRex 0x4F = true := by
  decide

theorem witness_EvexFieldValuesThatRaiseUd :
    (0xF2#8).extractLsb' 0 2 = 2#2 ∧ (0xED#8).extractLsb' 0 2 = 1#2 ∧ (0xCB#8).extractLsb' 6 2 = 3#2 := by decide

/-- `base` with the bytes of an instruction at the instruction pointer. -/
def coded (bs : List Byte) : State := { base with mem := writeBytes [] 0x400 bs }

theorem witness_StepRunsDecodedInstruction :
    decode .mode64 (window (coded (encode vexReg))).1 = .ok vexReg (List.replicate 10 0) := by decide

theorem witness_StoredInstructionIsRun : vexReg.wf .mode64 = true ∧ CodeAt (coded (encode vexReg)) vexReg := by
  refine ⟨by decide, ?_⟩
  unfold CodeAt ByteReadable; decide

/-- An instruction of 16 bytes. -/
def longVex : Instr := .vpmuldqVex128 (List.replicate 11 .cs) false 1 2 (.reg false 3)

theorem witness_TooLongInstructionRaisesGp :
    longVex.wfFields .mode64 = true ∧ longVex.length = 16 ∧
    ∀ j, j < 15 → ByteReadable (coded (encode longVex)) (fetchAddress (coded (encode longVex)) + j) ∧
      (encode longVex)[j]? =
        some (readByte (coded (encode longVex)).mem (fetchAddress (coded (encode longVex)) + j)) := by
  unfold ByteReadable; decide

/-- The code ends where the readable range does, after two bytes. -/
def cut : State := { coded (encode vexReg) with regions := [⟨0x3F0, 0x12, .ordinary, true⟩] }

theorem witness_UnreadableCodeByteRaisesPf :
    vexReg.wf cut.mode = true ∧ 2 < vexReg.length ∧
    (∀ j, j < 2 → ByteReadable cut (fetchAddress cut + j) ∧
      (encode vexReg)[j]? = some (readByte cut.mem (fetchAddress cut + j))) ∧
    legalAddr cut.mode (fetchAddress cut + 2) = true ∧ pageAnswer cut (fetchAddress cut + 2) = .notReadable := by
  unfold ByteReadable; decide

theorem witness_LockedInstructionRaisesUd :
    sseMem.wfFields .mode64 = true ∧ sseMem.length < 15 ∧
    ∀ j, j < sseMem.length + 1 →
      ByteReadable (coded (0xF0 :: encode sseMem)) (fetchAddress (coded (0xF0 :: encode sseMem)) + j) ∧
      (0xF0 :: encode sseMem)[j]? = some (readByte (coded (0xF0 :: encode sseMem)).mem
        (fetchAddress (coded (0xF0 :: encode sseMem)) + j)) := by
  unfold ByteReadable; decide

/-- A state that meets the invariant and whose step completes. -/
theorem witness_StepKeepsInvariant :
    (coded (encode vexReg)).Inv ∧ ∃ t, step (coded (encode vexReg)) = .next t := by
  refine ⟨?_, _, rfl⟩
  unfold State.Inv VectorsFit; decide

/-- A run of one instruction; the step is that of the frame statements. -/
theorem witness_RunIsAStraightLine : ∃ t, RunsTo 1 (coded (encode vexReg)) t := ⟨_, rfl⟩

theorem witness_RunKeepsInvariant : (coded (encode vexReg)).Inv ∧ ∃ t, RunsTo 1 (coded (encode vexReg)) t :=
  ⟨witness_StepKeepsInvariant.1, _, rfl⟩

theorem witness_ExecFrame : (∃ t, exec sseReg base = .next t) ∧ ∃ t, exec evexMerge base = .next t :=
  ⟨⟨_, rfl⟩, _, rfl⟩

theorem witness_StepFrame : ∃ t, step (coded (encode sseReg)) = .next t := ⟨_, rfl⟩

theorem witness_NoStepWritesMemory : ∃ t, step (coded (encode sseMem)) = .next t := ⟨_, rfl⟩

/-- A listed byte is overwritten, removed, and one is added before it. -/
theorem witness_MemoryWriteThenRead :
    Memory.wf [(4, 7)] = true ∧ writeByte [(4, 7)] 4 0 = [] ∧ writeByte [(4, 7)] 3 1 = [(3, 1), (4, 7)] := by decide

end Sys2Proof.Tests
end

section
/-! PROOFS. What a completed instruction leaves unchanged (R24), the invariant of the state (R4, R10, R16), the state after
reset (R23), and the bits that enable each form (R19). -/

namespace Sys2Proof.Machine

/-! ### A completed instruction -/

/-- Writing one register with a value cut to `MAX_VL` leaves every register cut to `MAX_VL` (R10). -/
theorem vectorsFit_completed {s : State} (h : VectorsFit s) (d : VecNum) (x : Vec) (p : Qword) :
    VectorsFit (completed s d x p) := by
  intro n
  rw [completed_v, completed_cpu, Fin.getElem_fin]
  by_cases hn : d.toNat = n
  · simp [hn]
  · rw [Vector.getElem_set_ne _ _ hn]
    exact h n

/-- Completing an instruction whose next address fits keeps the invariant. -/
theorem inv_completed {s : State} {len : Nat} (h : s.Inv) (hn : NextFits len s) (d : VecNum) (x : Vec) :
    (completed s d x (BitVec.ofNat 64 ((ip s).toNat + len))).Inv := by
  obtain ⟨hmem, hfit, hcpu, -⟩ := h
  refine ⟨hmem, vectorsFit_completed hfit d x _, hcpu, ?_⟩
  rw [completed_pc, completed_mode, BitVec.toNat_ofNat]
  exact (Nat.mod_le _ _).trans_lt hn

/-- Completing an instruction whose next address fits stays within the frame of R24. -/
theorem frameExcept_completed {s : State} {len : Nat} (hn : NextFits len s) (d : VecNum) (x : Vec) :
    FrameExcept d len s (completed s d x (BitVec.ofNat 64 ((ip s).toNat + len))) := by
  refine ⟨fun n hne => ?_, rfl, rfl, rfl, rfl, rfl, rfl, rfl, rfl, rfl, rfl, rfl, rfl, rfl, rfl, fun _ => rfl,
    ip_advanced len (writeV s d x) hn⟩
  have hd : d.toNat ≠ n.toNat := fun e => hne (BitVec.eq_of_toNat_eq e.symm)
  exact Vector.getElem_set_ne d.isLt n.isLt hd

/-- Every instruction that completes keeps the invariant. -/
theorem exec_keeps_inv {i : Instr} {s t : State} (hi : s.Inv) (h : exec i s = .next t) : t.Inv := by
  obtain ⟨-, hn, y, -, rfl⟩ := exec_next h
  exact inv_completed hi hn _ _

/-- Settles O54: a step that answers a next state ran an instruction. -/
theorem stepKeepsInvariant : Obligations.StepKeepsInvariant := by
  intro s t hi h
  obtain ⟨i, rest, -, he⟩ := step_next h
  exact exec_keeps_inv hi he

/-- Settles O56: the next state is the one `exec_next` names, and that one stays within the frame. -/
theorem execFrame : Obligations.ExecFrame := by
  intro s t i h
  obtain ⟨-, hn, y, -, rfl⟩ := exec_next h
  exact frameExcept_completed hn _ _

/-! ### Enabling bits -/

/-- XCR0[2:1] = 11b, bit by bit. -/
theorem xcr0Avx_iff (s : State) : xcr0Avx s = true ↔ s.xcr0.getLsbD 1 = true ∧ s.xcr0.getLsbD 2 = true := by
  have key : ∀ b : BitVec 2, (b == 3#2) = true ↔ b.getLsbD 0 = true ∧ b.getLsbD 1 = true := by decide
  simpa [xcr0Avx] using key (s.xcr0.extractLsb' 1 2)

/-- XCR0[7:5] = 111b, bit by bit. -/
theorem xcr0Avx512_iff (s : State) : xcr0Avx512 s = true ↔
    s.xcr0.getLsbD 5 = true ∧ s.xcr0.getLsbD 6 = true ∧ s.xcr0.getLsbD 7 = true := by
  have key : ∀ b : BitVec 3, (b == 7#3) = true ↔
      b.getLsbD 0 = true ∧ b.getLsbD 1 = true ∧ b.getLsbD 2 = true := by decide
  simpa [xcr0Avx512] using key (s.xcr0.extractLsb' 5 3)

/-- F-SSE looks at CR0.EM and CR4.OSFXSR only. -/
theorem osEnabled_sse_iff (s : State) :
    osEnabled .sse s = true ↔ s.cr0.getLsbD 2 = false ∧ s.cr4.getLsbD 9 = true := by
  simp [osEnabled, cr0Em, cr4Osfxsr]

/-- Both VEX forms look at the same bits. -/
theorem osEnabled_vex_iff (s : State) (f : Form) (hf : f = .vex128 ∨ f = .vex256) : osEnabled f s = true ↔
    s.cr4.getLsbD 18 = true ∧ s.xcr0.getLsbD 1 = true ∧ s.xcr0.getLsbD 2 = true := by
  rcases hf with rfl | rfl <;> simp [osEnabled, cr4Osxsave, xcr0Avx_iff]

/-- The three EVEX forms look at the same bits. -/
theorem osEnabled_evex_iff (s : State) (f : Form) (hf : isEvex f = true) : osEnabled f s = true ↔
    s.cr4.getLsbD 18 = true ∧ s.xcr0.getLsbD 1 = true ∧ s.xcr0.getLsbD 2 = true ∧
      s.xcr0.getLsbD 5 = true ∧ s.xcr0.getLsbD 6 = true ∧ s.xcr0.getLsbD 7 = true := by
  cases f with
  | sse | vex128 | vex256 => exact absurd hf (by decide)
  | evex128 | evex256 | evex512 => simp [osEnabled, cr4Osxsave, xcr0Avx_iff, xcr0Avx512_iff, and_assoc]

/-- Settles O21, one encoding after the other. -/
theorem enablingBits : Obligations.EnablingBits := fun s =>
  ⟨osEnabled_sse_iff s, osEnabled_vex_iff s, osEnabled_evex_iff s, Iff.rfl⟩

/-! ### Reset -/

/-- With eight lanes in `MAX_VL`, nothing of a vector is cut off. -/
theorem lowLanes_eight (x : Vec) : lowLanes 8 x = x := by
  apply Vector.ext
  intro j hj
  simp [lowLanes_getElem, hj]

/-- Every vector register of the reset state is zero in every lane. -/
theorem readV_reset (n : VecNum) : readV State.reset n = Vector.replicate 8 0#64 := by
  have hv : State.reset.v[n.toNat] = Vector.replicate 8 0#64 := Vector.getElem_replicate _
  rw [readV, hv]
  exact lowLanes_eight _

/-- CR0, CR4 and XCR0 as reset leaves them enable no form. -/
theorem osEnabled_reset (f : Form) : osEnabled f State.reset = false := by
  cases f <;> decide

/-- The availability check raises #UD for a form that the enabling bits do not allow (R112). -/
theorem checkAvailable_of_not_osEnabled {f : Form} {s : State} (h : osEnabled f s = false) :
    checkAvailable f s = some .ud := by
  simp [checkAvailable, h]

/-- An instruction whose form the enabling bits do not allow raises #UD, whatever its operands are. -/
theorem exec_of_not_osEnabled {i : Instr} {s : State} (h : osEnabled i.form s = false) :
    exec i s = .fault (.ud (ip s)) := by
  rw [exec_shape]
  simp only [runForm, checkAvailable_of_not_osEnabled h, raiseException]

/-- Settles O51: no form is enabled after reset, and a form that is not enabled raises #UD. -/
theorem resetValuesAndNoFormEnabled : Obligations.ResetValuesAndNoFormEnabled := by
  refine ⟨rfl, rfl, rfl, rfl, rfl, rfl, rfl, rfl, fun n i hi => ?_, osEnabled_reset,
    fun i => exec_of_not_osEnabled (osEnabled_reset i.form)⟩
  rw [bitOf, readV_reset, vecBits_getLsbD _ _ (by omega), Vector.getElem_replicate, BitVec.getLsbD_zero]

/-- Settles O52: `Feat.ofCpuid` reads each flag at its position. -/
theorem featureFlagPositions : Obligations.FeatureFlagPositions := fun _ _ => ⟨rfl, rfl, rfl, rfl, rfl⟩

/-- Settles O53: memory is empty, `MAX_VL` holds all eight lanes, and the processor has `MAX_VL` = 512. -/
theorem invariantHoldsAtReset : Obligations.InvariantHoldsAtReset :=
  ⟨rfl, fun _ => (lowLanes_eight _).symm, rfl, by decide⟩

end Sys2Proof.Machine
end

section
/-! PROOFS. Whatever the decoder accepts is the encoding of a well-formed instruction (R61), an encoding has the length R62
gives it, and from these which registers an encoding can name (R11, R50) and how far a step moves (R24, R41, R76). -/

namespace Sys2Proof

/-! ### Extension bits outside 64-bit mode (R48) -/

/-- In 64-bit mode no operand is under 16-bit addressing (R60). -/
theorem addrSizeOf_ne_a16 (pre : List LegacyPrefix) : addrSizeOf .mode64 pre ≠ .a16 := by
  simp only [addrSizeOf]
  split <;> decide

/-- Where the two top bits of the byte after `C4` are 11, its R and X are 0. -/
theorem vexP0_noExt {m : Mode} {p0 : Byte} (hv : vexAllowed m p0 = true) (hm : m ≠ .mode64) :
    (VexP0.ofByte p0).r = false ∧ (VexP0.ofByte p0).x = false := by
  have key : ∀ c : Byte, (c.extractLsb' 6 2 == 3#2) = true →
      (VexP0.ofByte c).r = false ∧ (VexP0.ofByte c).x = false := by decide
  exact key p0 (by simpa [vexAllowed, hm] using hv)

/-- Where the two top bits of the byte after `62` are 11, its R and X are 0. -/
theorem evexP0_noExt {m : Mode} {p0 : Byte} (hv : vexAllowed m p0 = true) (hm : m ≠ .mode64) :
    (EvexP0.ofByte p0).r = false ∧ (EvexP0.ofByte p0).x = false := by
  have key : ∀ c : Byte, (c.extractLsb' 6 2 == 3#2) = true →
      (EvexP0.ofByte c).r = false ∧ (EvexP0.ofByte c).x = false := by decide
  exact key p0 (by simpa [vexAllowed, hm] using hv)

/-! ### Each part of the decoder gives back what was encoded -/

/-- The bytes of a REX prefix, if there is one. -/
def rexBytes (rex : Option Rex) : List Byte := rex.toList.map Rex.toByte

/-- What F-SSE accepts after its opcode is the rest of an F-SSE encoding. -/
theorem decodeSse_sound {m : Mode} {pre : List LegacyPrefix} {rex : Option Rex} {t rest : List Byte} {i : Instr}
    (hx : m = .mode64 ∨ rex = none) (h : decodeSse m pre rex t = .ok i rest) :
    pre.map LegacyPrefix.byte ++ rexBytes rex ++ [0x0F#8, 0x38#8, 0x28#8] ++ t = encode i ++ rest ∧
      i.wfFields m = true := by
  simp only [decodeSse] at h
  split at h
  · exact nomatch h
  rename_i h66
  split at h
  · exact nomatch h
  rename_i hrep
  split at h
  · exact nomatch h
  rename_i reg src rest' hrm
  split at h
  · exact nomatch h
  rename_i hlock
  cases h
  have ha16 : addrSizeOf m pre = .a16 → m ≠ .mode64 := fun hz hm => addrSizeOf_ne_a16 pre (hm ▸ hz)
  cases rex with
  | none =>
    obtain ⟨rfl, hwf, hxb, hbb⟩ := decodeRM_sound _ _ _ _ _ _ _ (fun _ => ⟨rfl, rfl⟩) hrm
    simp_all [encode, encodeSse, rexBytes, Instr.wfFields, wfSse, RegMem.noExt]
  | some r =>
    have hm : m = .mode64 := by simpa using hx
    obtain ⟨rfl, hwf, hxb, hbb⟩ := decodeRM_sound _ _ _ _ _ _ _ (fun hz => absurd hm (ha16 hz)) hrm
    simp_all [encode, encodeSse, rexBytes, Instr.wfFields, wfSse]

/-- What is accepted as a legacy encoding, after its prefixes, is an F-SSE encoding. -/
theorem decodeLegacy_sound {m : Mode} {pre : List LegacyPrefix} {rex : Option Rex} {t rest : List Byte} {i : Instr}
    (hx : m = .mode64 ∨ rex = none) (h : decodeLegacy m pre rex t = .ok i rest) :
    pre.map LegacyPrefix.byte ++ rexBytes rex ++ t = encode i ++ rest ∧ i.wfFields m = true := by
  match t with
  | [] => exact nomatch h
  | [_] | [_, _] => simp only [decodeLegacy] at h; split at h <;> exact nomatch h
  | b0 :: b1 :: b2 :: t =>
    simp only [decodeLegacy] at h
    split at h
    · rename_i hop
      obtain ⟨rfl, rfl, rfl⟩ := hop
      simpa using decodeSse_sound hx h
    · exact nomatch h

/-- What is accepted after `C4` is the rest of a VEX encoding, and no REX prefix stands before it (R65). -/
theorem decodeVex_sound {m : Mode} {pre : List LegacyPrefix} {afterRex : Bool} {p0 : Byte} {t rest : List Byte}
    {i : Instr} (hv : vexAllowed m p0 = true) (h : decodeVex m pre afterRex (p0 :: t) = .ok i rest) :
    afterRex = false ∧ pre.map LegacyPrefix.byte ++ 0xC4#8 :: p0 :: t = encode i ++ rest ∧
      i.wfFields m = true := by
  match t with
  | [] | [_] => exact nomatch h
  | p1 :: op :: t =>
    have hp0 := vexP0_toByte_ofByte p0
    have hp1 := vexP1_toByte_ofByte p1
    have hrx := vexP0_noExt hv
    simp only [decodeVex] at h
    generalize VexP0.ofByte p0 = f at *
    generalize VexP1.ofByte p1 = g at *
    obtain ⟨r, x, b, map⟩ := f
    obtain ⟨w, v, l, pp⟩ := g
    subst hp0 hp1
    simp only at h hrx
    split at h
    · exact nomatch h
    rename_i hop
    split at h
    · exact nomatch h
    rename_i hext
    split at h
    · exact nomatch h
    rename_i reg src rest' hrm
    split at h
    · exact nomatch h
    rename_i hpre
    push Not at hop
    obtain ⟨rfl, rfl, rfl⟩ := hop
    have hclear : m = .mode64 ∨ (r = false ∧ x = false) ∧ b = false ∧ bitAt v 3 = false := by
      by_cases hm : m = .mode64
      · exact .inl hm
      · exact .inr ⟨hrx hm, by simpa [hm] using hext⟩
    obtain ⟨rfl, hwf, rfl, rfl⟩ := decodeRM_sound _ _ _ _ _ _ _ (fun hz => by
      rcases hclear with rfl | ⟨⟨-, hx⟩, hb, -⟩
      · exact absurd hz (addrSizeOf_ne_a16 pre)
      · exact ⟨hx, hb⟩) hrm
    simp only [Bool.or_eq_true, not_or, Bool.not_eq_true] at hpre
    obtain ⟨hrex, hforb⟩ := hpre
    have hwfV : wfVex m pre (ext4 r reg) v src = true := by
      rcases hclear with rfl | ⟨⟨hr, hx⟩, hb, hv3⟩
      · simp [wfVex, hforb, hwf]
      · simp [wfVex, hforb, hwf, RegMem.noExt, hr, hx, hb, hv3]
    cases l <;> cases h <;> exact ⟨hrex, by simp [encode, encodeVex], hwfV⟩

/-! ### The fields of EVEX (R51, R53 to R55) -/

theorem ext5_bit3 (e : Bool) (n : BitVec 4) : bitAt (ext5 e n) 3 = bitAt n 3 := by revert e n; decide

theorem maskingOf_sound {aaa : BitVec 3} {z : Bool} {mk : Masking} (h : maskingOf aaa z = some mk) :
    mk.wf = true ∧ mk.aaa = aaa ∧ mk.z = z := by
  unfold maskingOf at h
  by_cases h0 : aaa = 0#3
  · subst h0
    cases z with
    | false => cases h; exact ⟨rfl, rfl, rfl⟩
    | true => exact nomatch h
  · rw [if_neg h0] at h
    cases z with
    | false => cases h; exact ⟨bne_iff_ne.2 h0, rfl, rfl⟩
    | true => cases h; exact ⟨bne_iff_ne.2 h0, rfl, rfl⟩

theorem evexSrcOf_sound {b : Bool} {src : RegMem} {src2 : EvexSrc} (h : evexSrcOf b src = some src2) :
    src2.operand = src ∧ src2.bbcst = b := by
  cases b with
  | false => cases h; exact ⟨rfl, rfl⟩
  | true =>
    cases src with
    | reg _ _ => exact nomatch h
    | mem a => cases h; exact ⟨rfl, rfl⟩

theorem evexInstrOf_sound {ll : BitVec 2} {pre : List LegacyPrefix} {d a : VecNum} {mk : Masking} {src : EvexSrc}
    {i : Instr} (h : evexInstrOf ll pre d a mk src = some i) :
    encode i = encodeEvex ll pre d a mk src ∧ ∀ m, i.wfFields m = wfEvex m pre d a mk src := by
  unfold evexInstrOf at h
  split at h
  · rename_i hl; cases h; subst hl; exact ⟨rfl, fun _ => rfl⟩
  split at h
  · rename_i hl; cases h; subst hl; exact ⟨rfl, fun _ => rfl⟩
  split at h
  · rename_i hl; cases h; subst hl; exact ⟨rfl, fun _ => rfl⟩
  · exact nomatch h

/-- The fields of an EVEX instruction that is accepted. -/
theorem evexInstr_sound {pre : List LegacyPrefix} {f : EvexP0} {g : EvexP1} {p : EvexP2} {reg : BitVec 3}
    {src : RegMem} {i : Instr} (h : evexInstr pre f g p reg src = some i) :
    f.rsv = 0#2 ∧ g.one = true ∧ g.w = true ∧ ∃ mk src2, mk.wf = true ∧ mk.aaa = p.aaa ∧ mk.z = p.z ∧
      src2.operand = src ∧ src2.bbcst = p.b ∧
      evexInstrOf p.ll pre (ext5 f.r2 (ext4 f.r reg)) (ext5 p.v2 g.vvvv) mk src2 = some i := by
  unfold evexInstr at h
  split at h
  · exact nomatch h
  rename_i hfix
  push Not at hfix
  simp only [ne_eq, Bool.not_eq_false] at hfix
  obtain ⟨hrsv, hone, hw⟩ := hfix
  split at h
  · rename_i mk src2 hmk hsrc
    obtain ⟨hwf, haaa, hz⟩ := maskingOf_sound hmk
    obtain ⟨hop, hb⟩ := evexSrcOf_sound hsrc
    exact ⟨hrsv, hone, hw, mk, src2, hwf, haaa, hz, hop, hb, h⟩
  · exact nomatch h

/-- What is accepted after `62` is the rest of an EVEX encoding, and no REX prefix stands before it (R65). -/
theorem decodeEvex_sound {m : Mode} {pre : List LegacyPrefix} {afterRex : Bool} {p0 : Byte} {t rest : List Byte}
    {i : Instr} (hv : vexAllowed m p0 = true) (h : decodeEvex m pre afterRex (p0 :: t) = .ok i rest) :
    afterRex = false ∧ pre.map LegacyPrefix.byte ++ 0x62#8 :: p0 :: t = encode i ++ rest ∧
      i.wfFields m = true := by
  match t with
  | [] | [_] | [_, _] => exact nomatch h
  | p1 :: p2 :: op :: t =>
    have hp0 := evexP0_toByte_ofByte p0
    have hp1 := evexP1_toByte_ofByte p1
    have hp2 := evexP2_toByte_ofByte p2
    have hrx := evexP0_noExt hv
    simp only [decodeEvex] at h
    generalize EvexP0.ofByte p0 = f at *
    generalize EvexP1.ofByte p1 = g at *
    generalize EvexP2.ofByte p2 = p at *
    obtain ⟨r, x, b, r2, rsv, mm⟩ := f
    obtain ⟨w, v, one, pp⟩ := g
    obtain ⟨z, ll, bc, v2, aaa⟩ := p
    subst hp0 hp1 hp2
    simp only at h hrx
    split at h
    · exact nomatch h
    rename_i hop
    split at h
    · exact nomatch h
    rename_i hext
    split at h
    · exact nomatch h
    rename_i reg src rest' hrm
    split at h
    · exact nomatch h
    rename_i hpre
    split at h
    · exact nomatch h
    rename_i j hj
    cases h
    push Not at hop
    obtain ⟨rfl, rfl, rfl⟩ := hop
    have hclear : m = .mode64 ∨
        (r = false ∧ x = false) ∧ ((b = false ∧ r2 = false) ∧ v2 = false) ∧ bitAt v 3 = false := by
      by_cases hm : m = .mode64
      · exact .inl hm
      · exact .inr ⟨hrx hm, by simpa [hm] using hext⟩
    obtain ⟨rfl, hwf, rfl, rfl⟩ := decodeRM_sound _ _ _ _ _ _ _ (fun hz => by
      rcases hclear with rfl | ⟨⟨-, hx⟩, ⟨⟨hb, -⟩, -⟩, -⟩
      · exact absurd hz (addrSizeOf_ne_a16 pre)
      · exact ⟨hx, hb⟩) hrm
    obtain ⟨rfl, rfl, rfl, mk, src2, hmk, rfl, rfl, rfl, rfl, hi⟩ := evexInstr_sound hj
    obtain ⟨henc, hfields⟩ := evexInstrOf_sound hi
    simp only [Bool.or_eq_true, not_or, Bool.not_eq_true] at hpre
    obtain ⟨hrex, hforb⟩ := hpre
    obtain ⟨hd4, hd3, hd0⟩ := ext5_ext4_fields r2 r reg
    obtain ⟨ha4, ha0⟩ := ext5_fields v2 v
    refine ⟨hrex, ?_, ?_⟩
    · simp [henc, encodeEvex, hd4, hd3, hd0, ha4, ha0]
    · rw [hfields]
      rcases hclear with rfl | ⟨⟨rfl, hx⟩, ⟨⟨hb, rfl⟩, rfl⟩, hv3⟩
      · simp [wfEvex, hforb, hwf, hmk]
      · simp [wfEvex, hforb, hwf, hmk, hd4, hd3, ha4, ext5_bit3, RegMem.noExt, hx, hb, hv3]

/-! ### The decoder as a whole -/

/-- What is accepted after the legacy prefixes `pre` is, with them before it, the encoding of a well-formed instruction. -/
theorem decodeBody_sound {m : Mode} {pre : List LegacyPrefix} {bs rest : List Byte} {i : Instr}
    (h : decodeBody m pre bs = .ok i rest) :
    pre.map LegacyPrefix.byte ++ bs = encode i ++ rest ∧ i.wfFields m = true := by
  match bs with
  | [] => exact nomatch h
  | [c] =>
    simp only [decodeBody] at h
    split at h
    · exact nomatch h
    · simpa [rexBytes] using decodeLegacy_sound (.inr rfl) h
  | c :: c' :: t =>
    simp only [decodeBody] at h
    split at h
    · rename_i hc
      subst hc
      split at h
      · rename_i hv; exact (decodeVex_sound hv h).2
      · exact nomatch h
    split at h
    · rename_i hc
      subst hc
      split at h
      · rename_i hv; exact (decodeEvex_sound hv h).2
      · exact nomatch h
    split at h
    · rename_i hrex
      obtain ⟨rfl, hc⟩ := hrex
      split at h
      · cases t with
        | nil => exact nomatch h
        | cons p0 t => exact absurd (decodeVex_sound rfl h).1 (by decide)
      split at h
      · cases t with
        | nil => exact nomatch h
        | cons p0 t => exact absurd (decodeEvex_sound rfl h).1 (by decide)
      · simpa [rexBytes, rex_toByte_ofByte c hc] using decodeLegacy_sound (.inl rfl) h
    · simpa [rexBytes] using decodeLegacy_sound (.inr rfl) h

/-- The decoder accepts only encodings of well-formed instructions, and leaves the bytes after them. -/
theorem decode_sound {m : Mode} {bs rest : List Byte} {i : Instr} (h : decode m bs = .ok i rest) :
    bs = encode i ++ rest ∧ i.wfFields m = true := by
  obtain ⟨henc, hwf⟩ := decodeBody_sound h
  exact ⟨(splitPrefixes_sound bs).1.trans henc, hwf⟩

/-! ### Length (R62) -/

theorem disp_bytes_length (d : Disp) : d.bytes.length = d.length := by
  cases d <;> rfl

theorem addr_bytes_length (reg : BitVec 3) (a : Addr) : (a.bytes reg).length = 1 + a.tailLength := by
  cases a <;> simp [Addr.bytes, Addr.tailLength, disp_bytes_length, bytes32] <;> omega

theorem regMem_bytes_length (reg : BitVec 3) (src : RegMem) : (src.bytes reg).length = 1 + src.tailLength := by
  cases src with
  | reg x n => rfl
  | mem a => exact addr_bytes_length reg a

/-- `len` is the number of bytes of the encoding. -/
theorem encode_length (i : Instr) : (encode i).length = i.length := by
  cases i with
  | pmuldq pre rex d src =>
    cases rex <;> simp [encode, encodeSse, Instr.length, lengthSse, regMem_bytes_length] <;> omega
  | vpmuldqVex128 | vpmuldqVex256 =>
    simp [encode, encodeVex, Instr.length, lengthVex, regMem_bytes_length]; omega
  | vpmuldqEvex128 | vpmuldqEvex256 | vpmuldqEvex512 =>
    simp [encode, encodeEvex, Instr.length, lengthEvex, regMem_bytes_length]; omega

/-- No well-formed encoding is shorter than 5 bytes: F-SSE has its `66`, three opcode bytes and ModRM. -/
theorem five_le_length {m : Mode} {i : Instr} (h : i.wfFields m = true) : 5 ≤ i.length := by
  cases i with
  | pmuldq pre rex d src =>
    simp only [Instr.wfFields, wfSse, Bool.and_eq_true] at h
    obtain ⟨⟨⟨⟨⟨h66, -⟩, -⟩, -⟩, -⟩, -⟩ := h
    have hpre : 0 < pre.length := List.length_pos_of_mem (List.contains_iff_mem.1 h66)
    simp only [Instr.length, lengthSse]; omega
  | vpmuldqVex128 | vpmuldqVex256 => simp only [Instr.length, lengthVex]; omega
  | vpmuldqEvex128 | vpmuldqEvex256 | vpmuldqEvex512 => simp only [Instr.length, lengthEvex]; omega

/-! ### The registers an encoding can name (R11, R50) -/

theorem gpr_lt_of_bit3 {n : GprNum} (h : bitAt n 3 = false) : n.toNat < 8 := by
  revert n; decide

theorem vec_lt_of_bits {n : VecNum} (h3 : bitAt n 3 = false) (h4 : bitAt n 4 = false) : n.toNat < 8 := by
  revert n; decide

theorem setWidth_toNat (n : GprNum) : (n.setWidth 5).toNat = n.toNat :=
  BitVec.toNat_setWidth_of_le (by decide)

/-- A register operand without extension bits is one of registers 0 to 7, also with X as its fifth bit. -/
theorem reg_lt_of_noExt {x : Bool} {n : GprNum} (h : (RegMem.reg x n).noExt = true) :
    n.toNat < 8 ∧ (ext5 x n).toNat < 8 := by
  have key : ∀ (x : Bool) (n : GprNum), (!x && !bitAt n 3) = true → n.toNat < 8 ∧ (ext5 x n).toNat < 8 := by decide
  exact key x n h

/-- In Mode32 the fields of F-SSE name registers 0 to 7. -/
theorem wfSse_mode32 {pre : List LegacyPrefix} {rex : Option Bool} {d : GprNum} {src : RegMem}
    (h : wfSse .mode32 pre rex d src = true) : d.toNat < 8 ∧ src.noExt = true := by
  cases rex with
  | some w => simp [wfSse] at h
  | none =>
    simp only [wfSse, Bool.and_eq_true, Bool.not_eq_true'] at h
    obtain ⟨-, hd, hsrc⟩ := h
    exact ⟨gpr_lt_of_bit3 hd, hsrc⟩

/-- In Mode32 the fields of a VEX form name registers 0 to 7. -/
theorem wfVex_mode32 {pre : List LegacyPrefix} {d a : GprNum} {src : RegMem}
    (h : wfVex .mode32 pre d a src = true) : d.toNat < 8 ∧ a.toNat < 8 ∧ src.noExt = true := by
  simp only [wfVex, Bool.and_eq_true, Bool.or_eq_true, Bool.not_eq_true', reduceCtorEq, decide_false, Bool.false_eq_true,
    false_or] at h
  obtain ⟨-, ⟨hd, ha⟩, hsrc⟩ := h
  exact ⟨gpr_lt_of_bit3 hd, gpr_lt_of_bit3 ha, hsrc⟩

/-- In Mode32 the fields of an EVEX form name registers 0 to 7. -/
theorem wfEvex_mode32 {pre : List LegacyPrefix} {d a : VecNum} {mk : Masking} {src : EvexSrc}
    (h : wfEvex .mode32 pre d a mk src = true) : d.toNat < 8 ∧ a.toNat < 8 ∧ src.operand.noExt = true := by
  simp only [wfEvex, Bool.and_eq_true, Bool.or_eq_true, Bool.not_eq_true', reduceCtorEq, decide_false, Bool.false_eq_true,
    false_or] at h
  obtain ⟨-, ⟨⟨⟨hd3, hd4⟩, ha3⟩, ha4⟩, hsrc⟩ := h
  exact ⟨vec_lt_of_bits hd3 hd4, vec_lt_of_bits ha3 ha4, hsrc⟩

/-- In Mode32 the destination of a well-formed instruction is one of registers 0 to 7. -/
theorem dest_lt_of_mode32 {i : Instr} (h : i.wfFields .mode32 = true) : i.dest.toNat < 8 := by
  cases i with
  | pmuldq => rw [Instr.dest, setWidth_toNat]; exact (wfSse_mode32 h).1
  | vpmuldqVex128 | vpmuldqVex256 => rw [Instr.dest, setWidth_toNat]; exact (wfVex_mode32 h).1
  | vpmuldqEvex128 | vpmuldqEvex256 | vpmuldqEvex512 => exact (wfEvex_mode32 h).1

/-- A legacy or VEX form has four bits for its destination. -/
theorem dest_lt_of_not_evex {i : Instr} (h : Machine.isEvex i.form = false) : i.dest.toNat < 16 := by
  cases i with
  | pmuldq | vpmuldqVex128 | vpmuldqVex256 => rw [Instr.dest, setWidth_toNat]; exact BitVec.isLt _
  | vpmuldqEvex128 | vpmuldqEvex256 | vpmuldqEvex512 => exact nomatch h

/-- Settles O41: a decoded instruction is well formed, and in Mode32 a well-formed one has no extension bit. -/
theorem registersNamedPerMode : Obligations.RegistersNamedPerMode := by
  intro m bs rest i h
  obtain ⟨-, hwf⟩ := decode_sound h
  refine ⟨?_, dest_lt_of_not_evex, ?_, ?_, ?_⟩
  · rintro rfl
    exact dest_lt_of_mode32 hwf
  · rintro rfl pre rex d x n rfl
    exact (reg_lt_of_noExt (wfSse_mode32 hwf).2).1
  · rintro rfl pre w d a src hi
    have hfields : wfVex .mode32 pre d a src = true := by rcases hi with rfl | rfl <;> exact hwf
    obtain ⟨-, ha, hsrc⟩ := wfVex_mode32 hfields
    refine ⟨ha, ?_⟩
    rintro x n rfl
    exact (reg_lt_of_noExt hsrc).1
  · rintro rfl pre d a mk src hi
    have hfields : wfEvex .mode32 pre d a mk src = true := by rcases hi with rfl | rfl | rfl <;> exact hwf
    obtain ⟨-, ha, hsrc⟩ := wfEvex_mode32 hfields
    refine ⟨ha, ?_⟩
    rintro x n rfl
    exact (reg_lt_of_noExt hsrc).2

end Sys2Proof

namespace Sys2Proof.Machine

/-- The instruction that a step decodes has at most the 15 bytes of the window (R41). -/
theorem length_le_of_decode_window {s : State} {i : Instr} {rest : List Byte}
    (h : decode s.mode (window s).1 = .ok i rest) : i.length ≤ 15 :=
  calc i.length = (encode i).length := (encode_length i).symm
    _ ≤ (encode i ++ rest).length := by simp
    _ = (window s).1.length := by rw [← (decode_sound h).1]
    _ ≤ 15 := codeBytes_len s maxLength (fetchAddress s)

/-- Settles O57: the frame is that of the instruction the step decodes, whose length the window and its fields bound. -/
theorem stepFrame : Obligations.StepFrame := by
  intro s t h
  obtain ⟨i, rest, hd, he⟩ := step_next h
  exact ⟨i.dest, i.length, five_le_length (decode_sound hd).2, length_le_of_decode_window hd, execFrame s t i he⟩

end Sys2Proof.Machine
end

section
/-! PROOFS. A memory operand is read least significant byte first (R26); an available form answers what the checks of
`MemRead` answer for its operand (R25, R28, R30, R32, R34), and completes exactly when they pass; no step writes memory (R33). -/

namespace Sys2Proof.Machine

/-! ### Little-endian reads (R26) -/

/-- A field that lies inside lane `j` of a register is that field of the lane. -/
theorem vecBits_extract_in_lane (x : Vec) {j k w : Nat} (hj : j < 8) (hk : k + w ≤ 64) :
    (vecBits x).extractLsb' (64 * j + k) w = x[j].extractLsb' k w := by
  ext i hi
  have hdiv : (64 * j + k + i) / 64 = j := by omega
  have hmod : (64 * j + k + i) % 64 = k + i := by omega
  rw [BitVec.getElem_extractLsb', BitVec.getElem_extractLsb', vecBits_getLsbD x _ (by omega)]
  simp only [hdiv, hmod]

/-- Byte `i` of the quadword at `a` is the byte at `a + i`. -/
theorem readQword_byte (m : Memory) (a : Nat) {i : Nat} (h : i < 8) :
    (readQword m a).extractLsb' (8 * i) 8 = readByte m (a + i) := by
  unfold readQword
  ext b hb
  interval_cases i <;> simp <;> grind

/-- Doubleword `e` of the quadword at `a` is the one at `a + 4e`. -/
theorem readQword_dword (m : Memory) (a : Nat) {e : Nat} (h : e < 2) :
    (readQword m a).extractLsb' (32 * e) 32 = dwordAt m (a + 4 * e) := by
  unfold readQword dwordAt
  ext b hb
  interval_cases e <;> simp <;> grind

/-- A field that lies inside quadword `j` of a wide read is that field of the quadword at `a + 8j`. -/
theorem readVec_extract (m : Memory) (a : Nat) {kl j k w : Nat} (hkl : kl ≤ 8) (hj : j < kl) (hk : k + w ≤ 64) :
    (vecBits (readVec m a kl)).extractLsb' (64 * j + k) w = (readQword m (a + 8 * j)).extractLsb' k w := by
  rw [vecBits_extract_in_lane _ (hj.trans_le hkl) hk, readVec_getElem, if_pos hj]

/-- Settles O3: byte `i` is byte `i mod 8` of quadword `i / 8`, doubleword `e` is half `e mod 2` of quadword `e / 2`. -/
theorem memReadIsLittleEndian : Obligations.MemReadIsLittleEndian := by
  intro m a kl hkl
  have hle : kl ≤ 8 := by omega
  have hpos : 0 < kl := by omega
  refine ⟨fun i hi => ?_, fun e he => ?_, ?_⟩
  · have hpart : 8 * i = 64 * (i / 8) + 8 * (i % 8) := by omega
    rw [hpart, readVec_extract m a hle (by omega) (by omega), readQword_byte m _ (by omega)]
    congr 1; omega
  · have hpart : 32 * e = 64 * (e / 2) + 32 * (e % 2) := by omega
    rw [hpart, readVec_extract m a hle (by omega) (by omega), readQword_dword m _ (by omega)]
    congr 1; omega
  · have hlane := readVec_extract (k := 0) (w := 64) m a hle hpos (by omega)
    simpa using hlane.symm

/-! ### The checks of a memory operand -/

/-- F-SSE is the form with an alignment rule (R28). -/
theorem alignedForm_iff (f : Form) : alignedForm f = true ↔ f = .sse := by
  cases f <;> decide

/-- A misaligned operand raises #GP(0) before anything else is looked at (R25, R28). -/
theorem checkRead_of_misaligned (s : State) (stack : Bool) {a : Nat} (n : Nat) (h : a % 16 ≠ 0) :
    checkRead s true stack a n = .raise .gp0 := by
  simp [checkRead, h]

/-- Where the alignment rule holds, the checks of `MemRead` are the access check. -/
theorem checkRead_of_aligned (s : State) {aligned : Bool} (stack : Bool) {a : Nat} (n : Nat)
    (h : aligned = true → a % 16 = 0) : checkRead s aligned stack a n = access s stack a n := by
  cases aligned with
  | false => rfl
  | true => simp [checkRead, h rfl]

/-- Passing a read through two functions is passing it through their composite. -/
theorem Read.map_map {α β γ : Type} (r : Read α) (f : α → β) (g : β → γ) : (r.map f).map g = r.map (g ∘ f) := by
  cases r <;> rfl

/-! ### A form with a memory operand answers what the checks answer

`i` reads `bytes` bytes at the linear address `la`. -/

section
variable {s : State} {i : Instr} {a : Addr} {n bytes : Nat} {la : Qword}

/-- An operand with a linear address is read there, once the checks of `MemRead` have passed. -/
theorem operandAddress_of_linear {f : Form} {pre : List LegacyPrefix} {len : Nat}
    (hl : linearAddress s pre n len a = some la) :
    operandAddress s f pre n bytes len a =
      (checkRead s (alignedForm f) (usesStack pre a) la.toNat bytes).map fun _ => la.toNat := by
  simp only [operandAddress, hl]

/-- The checks of `MemRead` on the operand decide what the second source is. -/
theorem source2_eq_map_checkRead (hm : memOperand i = some (a, n, bytes))
    (hl : linearAddress s i.prefixes n i.length a = some la) :
    ∃ g : Unit → Vec, source2 s i.form i.prefixes i.length (sourceOf i) =
      (checkRead s (alignedForm i.form) (usesStack i.prefixes a) la.toNat bytes).map g := by
  obtain ⟨g, hg⟩ := source2_mem i s a n bytes hm
  exact ⟨_, by rw [hg, operandAddress_of_linear hl, Read.map_map]⟩

/-- An exception of the checks is raised. -/
theorem exec_of_checkRead_raise {e : ExcKind} (hr : Ready i.form s) (hm : memOperand i = some (a, n, bytes))
    (hl : linearAddress s i.prefixes n i.length a = some la)
    (hc : checkRead s (alignedForm i.form) (usesStack i.prefixes a) la.toNat bytes = .raise e) :
    exec i s = raiseException e s := by
  obtain ⟨g, hg⟩ := source2_eq_map_checkRead hm hl
  exact exec_of_raise hr (by rw [hg, hc, Read.map])

/-- A refusal of the checks is the instruction's. -/
theorem exec_of_checkRead_refuse {r : Refusal} (hr : Ready i.form s) (hm : memOperand i = some (a, n, bytes))
    (hl : linearAddress s i.prefixes n i.length a = some la)
    (hc : checkRead s (alignedForm i.form) (usesStack i.prefixes a) la.toNat bytes = .refuse r) :
    exec i s = .refused r := by
  obtain ⟨g, hg⟩ := source2_eq_map_checkRead hm hl
  exact exec_of_refuse hr (by rw [hg, hc, Read.map])

/-- The second source has a value exactly when the checks pass. -/
theorem source2_value_iff (hm : memOperand i = some (a, n, bytes))
    (hl : linearAddress s i.prefixes n i.length a = some la) :
    (∃ y, source2 s i.form i.prefixes i.length (sourceOf i) = .value y) ↔
      checkRead s (alignedForm i.form) (usesStack i.prefixes a) la.toNat bytes = .value () := by
  obtain ⟨g, hg⟩ := source2_eq_map_checkRead hm hl
  rw [hg]
  cases checkRead s (alignedForm i.form) (usesStack i.prefixes a) la.toNat bytes <;> simp [Read.map]

/-- Where the alignment rule holds, the checks on the operand are the access check. -/
theorem checkRead_operand (h : i.form = .sse → la.toNat % 16 = 0) :
    checkRead s (alignedForm i.form) (usesStack i.prefixes a) la.toNat bytes =
      access s (usesStack i.prefixes a) la.toNat bytes :=
  checkRead_of_aligned s _ _ fun hf => h ((alignedForm_iff _).1 hf)

end

/-- An available instruction completes exactly when its source has a value and the next address fits. -/
theorem exec_completes_iff {i : Instr} {s : State} (hr : Ready i.form s) :
    (∃ t, exec i s = .next t) ↔
      (∃ y, source2 s i.form i.prefixes i.length (sourceOf i) = .value y) ∧ NextFits i.length s := by
  constructor
  · rintro ⟨t, ht⟩
    obtain ⟨-, hn, y, hy, -⟩ := exec_next ht
    exact ⟨⟨y, hy⟩, hn⟩
  · rintro ⟨⟨y, hy⟩, hn⟩
    exact ⟨_, exec_of_value hr hn hy⟩

/-- Settles O24: the alignment check is the first of `MemRead`. -/
theorem misalignedPmuldqRaisesGp : Obligations.MisalignedPmuldqRaisesGp := by
  intro s pre rex d a la hr hl hmis
  exact exec_of_checkRead_raise (i := .pmuldq pre rex d (.mem a)) hr rfl hl (checkRead_of_misaligned s _ _ hmis)

/-- Settles O25: the access check looks for illegal addresses first. -/
theorem illegalOperandAddressFaults : Obligations.IllegalOperandAddressFaults := by
  intro s i a n bytes la hr hm hl hal hill
  rw [exec_of_checkRead_raise hr hm hl ((checkRead_operand hal).trans (access_of_illegal s _ _ _ hill))]
  cases usesStack i.prefixes a <;> rfl

/-- Settles O26: at legal addresses the access check looks at every byte of the operand, and no mask is asked. -/
theorem unreadableOperandByteRaisesPf : Obligations.UnreadableOperandByteRaisesPf := by
  rintro s i bytes la hr ⟨a, n, hm, hl, hal⟩ hleg hun
  exact exec_of_checkRead_raise hr hm hl ((checkRead_operand hal).trans (access_of_notReadable s _ _ _ hleg hun))

/-- Settles O27: a device byte is what the access check looks for last. -/
theorem deviceOperandIsRefused : Obligations.DeviceOperandIsRefused := by
  rintro s i bytes la hr ⟨a, n, hm, hl, hal⟩ hread hdev
  exact exec_of_checkRead_refuse hr hm hl ((checkRead_operand hal).trans (access_of_device s _ _ _ hread hdev))

/-- Settles O30: the source has a value exactly when the checks pass, and these pass exactly when the alignment rule holds
and every byte can be read. -/
theorem memoryFormsCompleteExactlyWhenReadable : Obligations.MemoryFormsCompleteExactlyWhenReadable := by
  intro s i a n bytes la hr hm hl
  rw [exec_completes_iff hr, source2_value_iff hm hl, checkRead_eq_value, alignedForm_iff, and_assoc]

/-! ### Steps -/

/-- Settles O58: the next state of a step is that of an instruction, which holds the memory and the ranges it had. -/
theorem noStepWritesMemory : Obligations.NoStepWritesMemory := by
  intro s t h
  obtain ⟨i, rest, -, he⟩ := step_next h
  obtain ⟨-, -, y, -, rfl⟩ := exec_next he
  exact ⟨completed_mem .., completed_regions ..⟩

end Sys2Proof.Machine
end

section
/-! PROOFS. Decoding an encoded well-formed instruction gives it back, in every mode and whatever follows it (R41 to R61), and
a proper initial part of an encoding needs more bytes. -/

namespace Sys2Proof

/-! ### The first byte after the legacy prefixes -/

/-- A REX byte is none of the bytes the decoder looks for before it: the legacy prefixes, `C4` and `62`. -/
theorem rex_toByte_distinct (w r x b : Bool) : LegacyPrefix.ofByte (Rex.mk w r x b).toByte = none ∧
    (Rex.mk w r x b).toByte ≠ 0xC4#8 ∧ (Rex.mk w r x b).toByte ≠ 0x62#8 := by
  revert w r x b; decide

/-- The legacy prefixes before a byte that is none of them are split off. -/
theorem decode_of_prefixes (m : Mode) (pre : List LegacyPrefix) {c : Byte} (t : List Byte)
    (hc : LegacyPrefix.ofByte c = none) :
    decode m (pre.map LegacyPrefix.byte ++ c :: t) = decodeBody m pre (c :: t) := by
  have hsplit : splitPrefixes (pre.map LegacyPrefix.byte ++ c :: t) = (pre, c :: t) :=
    splitPrefixes_map_byte pre _ fun b u h => by cases h; exact hc
  simp only [decode, hsplit]

/-! ### Fields that the decoder puts together again -/

/-- What R48 asks of the byte after `C4`: outside 64-bit mode R and X are 0. -/
theorem vexAllowed_vex {m : Mode} {r x : Bool} (b : Bool) (mp : BitVec 5) (h : m = .mode64 ∨ r = false ∧ x = false) :
    vexAllowed m (VexP0.mk r x b mp).toByte = true := by
  have key : ∀ (b : Bool) (mp : BitVec 5), ((VexP0.mk false false b mp).toByte.extractLsb' 6 2 == 3#2) = true := by decide
  rcases h with rfl | ⟨rfl, rfl⟩
  · rfl
  · rw [vexAllowed, key, Bool.or_true]

/-- What R48 asks of the byte after `62`: outside 64-bit mode R and X are 0. -/
theorem vexAllowed_evex {m : Mode} {r x : Bool} (b r2 : Bool) (rsv mm : BitVec 2)
    (h : m = .mode64 ∨ r = false ∧ x = false) : vexAllowed m (EvexP0.mk r x b r2 rsv mm).toByte = true := by
  have key : ∀ (b r2 : Bool) (rsv mm : BitVec 2),
      ((EvexP0.mk false false b r2 rsv mm).toByte.extractLsb' 6 2 == 3#2) = true := by decide
  rcases h with rfl | ⟨rfl, rfl⟩
  · rfl
  · rw [vexAllowed, key, Bool.or_true]

/-- A well-formed writemask is the one its fields `aaa` and `z` name (R53, R54). -/
theorem maskingOf_fields {mk : Masking} (h : mk.wf = true) : maskingOf mk.aaa mk.z = some mk := by
  cases mk with
  | none => rfl
  | merge k | zero k =>
    have hk : k ≠ 0#3 := by simpa [Masking.wf] using h
    simp [maskingOf, Masking.aaa, Masking.z, hk]

/-- A second source is the one its operand and `EVEX.b` name (R55). -/
theorem evexSrcOf_fields (src : EvexSrc) : evexSrcOf src.bbcst src.operand = some src := by
  cases src <;> rfl

/-- No extension bit is set exactly when X and B are 0. -/
theorem noExt_iff (src : RegMem) : src.noExt = true ↔ src.xbit = false ∧ src.bbit = false := by
  simp [RegMem.noExt]

/-! ### Each form -/

section
variable {m : Mode} {pre : List LegacyPrefix}

/-- The part of an F-SSE encoding after its opcode is read back. -/
theorem decodeSse_bytes {rex : Option Rex} {r : Bool} {reg : BitVec 3} {src : RegMem} (rest : List Byte)
    (h66 : pre.contains .opSize = true) (hrep : pre.contains .repne = false ∧ pre.contains .rep = false)
    (hlock : pre.contains .lock = false) (hsrc : src.wf (addrSizeOf m pre) = true)
    (hrex : ∃ w, rex.getD ⟨false, false, false, false⟩ = ⟨w, r, src.xbit, src.bbit⟩) :
    decodeSse m pre rex (src.bytes reg ++ rest) = .ok (.pmuldq pre (rex.map Rex.w) (ext4 r reg) src) rest := by
  obtain ⟨w, hw⟩ := hrex
  simp [decodeSse, hw, h66, hrep, hlock, decodeRM_bytes _ _ _ _ hsrc, -List.contains_eq_mem]

/-- An F-SSE encoding is read back. -/
theorem decode_encodeSse {rex : Option Bool} {d : GprNum} {src : RegMem} (rest : List Byte)
    (h : wfSse m pre rex d src = true) :
    decode m (encodeSse pre rex d src ++ rest) = .ok (.pmuldq pre rex d src) rest := by
  simp only [wfSse, Bool.and_eq_true, Bool.not_eq_true'] at h
  obtain ⟨⟨⟨⟨⟨h66, hrepne⟩, hrep⟩, hlock⟩, hsrc⟩, hrex⟩ := h
  cases rex with
  | none =>
    simp only [Bool.and_eq_true, Bool.not_eq_true', noExt_iff] at hrex
    obtain ⟨hd, hx, hb⟩ := hrex
    have hsse := decodeSse_bytes (rex := none) (r := bitAt d 3) (reg := low3 d) rest h66 ⟨hrepne, hrep⟩ hlock hsrc
      ⟨false, by rw [hd, hx, hb]; rfl⟩
    simp only [encodeSse, List.append_assoc, List.cons_append, List.nil_append]
    rw [decode_of_prefixes m pre _ (by decide)]
    have hleg : ¬ (m = .mode64 ∧ Rex.isRex 0x0F#8 = true) := fun hc => absurd hc.2 (by decide)
    simpa [decodeBody, decodeLegacy, hleg] using hsse
  | some w =>
    have hm : m = .mode64 := by simpa using hrex
    subst hm
    have hsse := decodeSse_bytes (rex := some ⟨w, bitAt d 3, src.xbit, src.bbit⟩) (r := bitAt d 3) (reg := low3 d) rest
      h66 ⟨hrepne, hrep⟩ hlock hsrc ⟨w, rfl⟩
    obtain ⟨hpre, hC4, h62⟩ := rex_toByte_distinct w (bitAt d 3) src.xbit src.bbit
    simp only [encodeSse, List.append_assoc, List.cons_append, List.nil_append]
    rw [decode_of_prefixes _ pre _ hpre]
    simpa [decodeBody, decodeLegacy, hC4, h62] using hsse

/-- The instruction of a VEX encoding with the given L bit (R47). -/
def vexInstr (l : Bool) (pre : List LegacyPrefix) (w : Bool) (d a : GprNum) (src : RegMem) : Instr :=
  if l then .vpmuldqVex256 pre w d a src else .vpmuldqVex128 pre w d a src

/-- A VEX encoding is read back. -/
theorem decode_encodeVex (l : Bool) {w : Bool} {d a : GprNum} {src : RegMem} (rest : List Byte)
    (h : wfVex m pre d a src = true) :
    decode m (encodeVex l pre w d a src ++ rest) = .ok (vexInstr l pre w d a src) rest := by
  simp only [wfVex, Bool.and_eq_true, Bool.or_eq_true, Bool.not_eq_true', decide_eq_true_eq, noExt_iff] at h
  obtain ⟨⟨hforb, hsrc⟩, hext⟩ := h
  have hallowed := vexAllowed_vex (m := m) (r := bitAt d 3) (x := src.xbit) src.bbit 2#5
    (hext.imp_right fun ⟨⟨hd, _⟩, hx, _⟩ => ⟨hd, hx⟩)
  have hclear : ¬ (m ≠ .mode64 ∧ (src.bbit || bitAt a 3) = true) := by
    rintro ⟨hm, hbit⟩
    obtain ⟨⟨-, ha⟩, -, hb⟩ := hext.resolve_left hm
    simp [ha, hb] at hbit
  simp only [encodeVex, List.append_assoc, List.cons_append, List.nil_append]
  rw [decode_of_prefixes m pre _ (by decide)]
  simp only [decodeBody, if_true, hallowed, decodeVex, vexP0_ofByte_toByte, vexP1_ofByte_toByte, hclear,
    decodeRM_bytes _ _ _ _ hsrc, hforb]
  cases l <;> simp [vexInstr]

/-- An EVEX encoding of the form that `ll` names is read back. -/
theorem decode_encodeEvex {ll : BitVec 2} {d a : VecNum} {mk : Masking} {src : EvexSrc} {i : Instr} (rest : List Byte)
    (h : wfEvex m pre d a mk src = true) (hi : evexInstrOf ll pre d a mk src = some i) :
    decode m (encodeEvex ll pre d a mk src ++ rest) = .ok i rest := by
  simp only [wfEvex, Bool.and_eq_true, Bool.or_eq_true, Bool.not_eq_true', decide_eq_true_eq, noExt_iff] at h
  obtain ⟨⟨⟨hforb, hsrc⟩, hmk⟩, hext⟩ := h
  have hallowed := vexAllowed_evex (m := m) (r := bitAt d 3) (x := src.operand.xbit) src.operand.bbit (bitAt d 4) 0#2 2#2
    (hext.imp_right fun ⟨⟨⟨⟨hd, _⟩, _⟩, _⟩, hx, _⟩ => ⟨hd, hx⟩)
  have hclear : ¬ (m ≠ .mode64 ∧
      (src.operand.bbit || bitAt d 4 || bitAt a 4 || bitAt (a.extractLsb' 0 4) 3) = true) := by
    rintro ⟨hm, hbit⟩
    obtain ⟨⟨⟨⟨-, hd⟩, ha3⟩, ha4⟩, -, hb⟩ := hext.resolve_left hm
    rw [← ext5_bit3 (bitAt a 4), ext5_low4, hd, ha3, ha4, hb] at hbit
    exact absurd hbit (by decide)
  have hinstr : evexInstr pre ⟨bitAt d 3, src.operand.xbit, src.operand.bbit, bitAt d 4, 0#2, 2#2⟩
      ⟨true, a.extractLsb' 0 4, true, 1#2⟩ ⟨mk.z, ll, src.bbcst, bitAt a 4, mk.aaa⟩ (d.extractLsb' 0 3) src.operand =
      some i := by
    simp [evexInstr, maskingOf_fields hmk, evexSrcOf_fields, ext5_ext4, ext5_low4, hi]
  simp only [encodeEvex, List.append_assoc, List.cons_append, List.nil_append]
  rw [decode_of_prefixes m pre _ (by decide)]
  simp only [decodeBody, if_true, hallowed, decodeEvex, evexP0_ofByte_toByte, evexP1_ofByte_toByte, evexP2_ofByte_toByte,
    hclear, decodeRM_bytes _ _ _ _ hsrc, hforb, hinstr]
  simp

end

/-! ### The decoder as a whole -/

/-- Decoding the encoding of a well-formed instruction gives it back, with the bytes that follow it. -/
theorem decode_encode {m : Mode} {i : Instr} (h : i.wfFields m = true) (rest : List Byte) :
    decode m (encode i ++ rest) = .ok i rest := by
  cases i with
  | pmuldq => exact decode_encodeSse rest h
  | vpmuldqVex128 => exact decode_encodeVex false rest h
  | vpmuldqVex256 => exact decode_encodeVex true rest h
  | vpmuldqEvex128 | vpmuldqEvex256 | vpmuldqEvex512 => exact decode_encodeEvex rest h rfl

/-- Appending bytes to what was decoded leaves the instruction and appends them to the rest. -/
theorem addRest_eq_ok {b rest : List Byte} {i : Instr} {x : DecodeResult} (h : x.addRest b = .ok i rest) :
    ∃ r, r ++ b = rest := by
  cases x with
  | ok j r => cases h; exact ⟨r, rfl⟩
  | invalid | refuse | more => exact nomatch h

/-- A proper initial part of an encoding needs more bytes: an answer on it would leave no byte for the rest. -/
theorem decode_take_encode {m : Mode} {i : Instr} {k : Nat} (h : i.wfFields m = true) (hk : k < (encode i).length) :
    decode m ((encode i).take k) = .more := by
  by_contra hne
  have happ := decode_append m _ ((encode i).drop k) hne
  have hfull := decode_encode h []
  rw [List.append_nil] at hfull
  rw [List.take_append_drop, hfull] at happ
  obtain ⟨r, hr⟩ := addRest_eq_ok happ.symm
  have hdrop : ((encode i).drop k).length = 0 := by rw [(List.append_eq_nil_iff.1 hr).2]; rfl
  rw [List.length_drop] at hdrop
  omega

end Sys2Proof
end

section
/-! PROOFS. A step fetches the instruction that stands at the instruction pointer and runs it, or raises #PF at the first
code byte that cannot be read (R37, R41, R117). -/

namespace Sys2Proof.Machine

/-! ### What a step does with its window -/

/-- Settles O46: `fetch` answers the decoded instruction. -/
theorem stepRunsDecodedInstruction : Obligations.StepRunsDecodedInstruction := by
  intro s i rest h
  simp only [step, fetch, h]

/-- Where the bytes that can be read need more and an exception stops the reading, the step raises it. -/
theorem step_of_more_raise {s : State} {e : ExcKind} (hd : decode s.mode (window s).1 = .more)
    (hw : (window s).2 = some (.raise e)) : step s = raiseException e s := by
  simp only [step, fetch, hd, hw]

/-! ### Reading code bytes -/

/-- A code byte at a legal address that cannot be read is a page fault. -/
theorem codeByte_of_notReadable {s : State} {a : Nat} (hl : legalAddr s.mode a = true)
    (hp : pageAnswer s a = .notReadable) : codeByte s a = .raise .pf := by
  have hacc : access s false a 1 = .raise .pf := by
    refine access_of_notReadable s _ _ _ (fun i hi => ?_) ⟨0, one_pos, hp⟩
    obtain rfl : i = 0 := by omega
    exact hl
  simp [codeByte, legal_top _ _ hl, hacc, Read.map]

/-- Reading stops at the first byte that raises an exception. -/
theorem codeBytes_of_raise {s : State} {a : Nat} {e : ExcKind} (h : codeByte s a = .raise e) {n : Nat} (hn : 0 < n) :
    codeBytes s a n = ([], some (.raise e)) := by
  obtain ⟨n, rfl⟩ := Nat.exists_eq_add_of_lt hn
  simp [codeBytes, h]

/-- Settles O47: the stored encoding heads the window, and decoding gives it back. -/
theorem storedInstructionIsRun : Obligations.StoredInstructionIsRun := by
  intro s i hwf hcode
  simp only [Instr.wf, Bool.and_eq_true, decide_eq_true_eq] at hwf
  obtain ⟨hfields, hlen⟩ := hwf
  obtain ⟨rest, hwin, -⟩ := codeBytes_prefix s (encode i) maxLength (fetchAddress s) ((encode_length i).trans_le hlen) hcode
  exact stepRunsDecodedInstruction s i rest (by rw [window, hwin, decode_encode hfields])

/-- Settles O49: the window is a proper initial part of the encoding, stopped by #PF. -/
theorem unreadableCodeByteRaisesPf : Obligations.UnreadableCodeByteRaisesPf := by
  intro s i k hwf hk hcode hl hp
  simp only [Instr.wf, Bool.and_eq_true, decide_eq_true_eq] at hwf
  obtain ⟨hfields, hlen⟩ := hwf
  have hkenc : k < (encode i).length := hk.trans_eq (encode_length i).symm
  have hklen : ((encode i).take k).length = k := List.length_take_of_le hkenc.le
  obtain ⟨-, -, hwin⟩ := codeBytes_prefix s ((encode i).take k) maxLength (fetchAddress s)
    (hklen.trans_le (hk.le.trans hlen)) fun j hj => by
      obtain ⟨hread, hbyte⟩ := hcode j (hj.trans_eq hklen)
      refine ⟨hread, ?_⟩
      rw [List.getElem_take]
      exact ((List.getElem?_eq_some_iff.1 hbyte).2).symm
  rw [hklen, codeBytes_of_raise (codeByte_of_notReadable hl hp) (Nat.sub_pos_of_lt (hk.trans_le hlen)),
    List.append_nil] at hwin
  refine step_of_more_raise (e := .pf) ?_ (by rw [window, hwin])
  rw [window, hwin]
  exact decode_take_encode hfields hkenc

end Sys2Proof.Machine
end

section
/-! PROOFS. The round trip of decoder and encoder (R61), the length of an encoding (R62), the prefixes and EVEX fields that
make an encoding invalid (R64, R65), and a step on code that is too long or locked (R41, R112). -/

namespace Sys2Proof

/-! ### The round trip -/

/-- Settles O36. -/
theorem decodeOfEncodeIsIdentity : Obligations.DecodeOfEncodeIsIdentity := fun _ _ rest h => decode_encode h rest

/-- Settles O37. -/
theorem decodedBytesAreAnEncoding : Obligations.DecodedBytesAreAnEncoding := fun _ _ _ _ h => decode_sound h

/-- Settles O39: an answer on a proper initial part would leave the full encoding bytes for its rest. -/
theorem encodingsArePrefixFree : Obligations.EncodingsArePrefixFree := fun _ _ _ h hk => decode_take_encode h hk

/-- Settles O40: the decoder is evaluated on the five words. -/
theorem sampleWordsDecode : Obligations.SampleWordsDecode := by
  unfold Obligations.SampleWordsDecode
  decide

/-! ### Length (R62) -/

theorem disp_length_le (d : Disp) : d.length ≤ 4 := by
  cases d <;> simp [Disp.length]

/-- At most a SIB byte and four displacement bytes follow ModRM. -/
theorem regMem_tailLength_le (src : RegMem) : src.tailLength ≤ 5 := by
  cases src with
  | reg x n => exact Nat.zero_le 5
  | mem a =>
    cases a with
    | base _ _ disp => exact (disp_length_le disp).trans (by omega)
    | sib _ _ _ disp => exact Nat.add_le_add_left (disp_length_le disp) 1
    | sibNoBase => exact le_refl 5
    | disp32 => exact Nat.le_succ 4
    | addr16 => exact Nat.zero_le 5

/-- Settles O38: the parts before the operand have fixed lengths, and 1 to 6 bytes are the operand's. -/
theorem lengthOfEncodings : Obligations.LengthOfEncodings := by
  refine ⟨encode_length, fun rex d src => ?_, fun w d a src => ?_, fun d a mk src => ?_⟩
  · have htail := regMem_tailLength_le src
    have hrex : (if rex.isSome then 1 else 0) ≤ 1 := by split <;> omega
    simp only [Instr.length, lengthSse, List.length_singleton]
    omega
  · have htail := regMem_tailLength_le src
    simp only [Instr.length, lengthVex, List.length_nil, and_true]
    omega
  · have htail := regMem_tailLength_le src.operand
    simp only [Instr.length, lengthEvex, List.length_nil, and_true]
    omega

/-! ### Which part of the decoder reads the bytes after the legacy prefixes -/

/-- The bytes after the legacy prefixes alone decide which part of the decoder reads them. -/
theorem decodeBody_cases (m : Mode) (bs : List Byte) :
    (∀ pre, decodeBody m pre bs = .more) ∨ (∀ pre, decodeBody m pre bs = .refuse .notThisInstruction) ∨
      (∃ rex t, ∀ pre, decodeBody m pre bs = decodeLegacy m pre rex t) ∨
      (∃ afterRex t, ∀ pre, decodeBody m pre bs = decodeVex m pre afterRex t) ∨
      (∃ afterRex t, ∀ pre, decodeBody m pre bs = decodeEvex m pre afterRex t) := by
  match bs with
  | [] => exact .inl fun _ => rfl
  | [c] =>
    simp only [decodeBody]
    split
    · exact .inl fun _ => rfl
    · exact .inr (.inr (.inl ⟨none, _, fun _ => rfl⟩))
  | c :: c' :: t =>
    simp only [decodeBody]
    split
    · split
      · exact .inr (.inr (.inr (.inl ⟨false, _, fun _ => rfl⟩)))
      · exact .inr (.inl fun _ => rfl)
    split
    · split
      · exact .inr (.inr (.inr (.inr ⟨false, _, fun _ => rfl⟩)))
      · exact .inr (.inl fun _ => rfl)
    split
    · split
      · exact .inr (.inr (.inr (.inl ⟨true, _, fun _ => rfl⟩)))
      split
      · exact .inr (.inr (.inr (.inr ⟨true, _, fun _ => rfl⟩)))
      · exact .inr (.inr (.inl ⟨some _, _, fun _ => rfl⟩))
    · exact .inr (.inr (.inl ⟨none, _, fun _ => rfl⟩))

/-! ### Prefixes that make accepted bytes invalid (R64, R65) -/

/-- A prefix that may not stand before VEX or EVEX may not stand there whatever follows it, and leaves the address size. -/
theorem forbidden_cons {p : LegacyPrefix} (hp : forbiddenBeforeVex [p] = true) (m : Mode) (pre : List LegacyPrefix) :
    forbiddenBeforeVex (p :: pre) = true ∧ addrSizeOf m (p :: pre) = addrSizeOf m pre := by
  cases p with
  | lock | opSize | repne | rep =>
    refine ⟨by simp [forbiddenBeforeVex], ?_⟩
    cases m <;> simp [addrSizeOf]
  | addrSize | cs | ss | ds | es | fs | gs => exact absurd hp (by decide)

section
variable {m : Mode} {pre pre' : List LegacyPrefix} {afterRex afterRex' : Bool} {t rest : List Byte} {i : Instr}

/-- Bytes that are accepted after `C4` are invalid there with a forbidden prefix or a REX prefix before it. -/
theorem decodeVex_of_forbidden (hsz : addrSizeOf m pre' = addrSizeOf m pre)
    (hf : (afterRex' || forbiddenBeforeVex pre') = true) (h : decodeVex m pre afterRex t = .ok i rest) :
    decodeVex m pre' afterRex' t = .invalid := by
  match t with
  | [] | [_] | [_, _] => exact nomatch h
  | p0 :: p1 :: op :: t =>
    simp only [decodeVex, hsz, hf] at h ⊢
    split at h
    · exact nomatch h
    rename_i hop
    split at h
    · exact nomatch h
    rename_i hext
    split at h
    · exact nomatch h
    · simp only [if_neg hop, if_neg hext, if_true]

/-- Bytes that are accepted after `62` are invalid there with a forbidden prefix or a REX prefix before it. -/
theorem decodeEvex_of_forbidden (hsz : addrSizeOf m pre' = addrSizeOf m pre)
    (hf : (afterRex' || forbiddenBeforeVex pre') = true) (h : decodeEvex m pre afterRex t = .ok i rest) :
    decodeEvex m pre' afterRex' t = .invalid := by
  match t with
  | [] | [_] | [_, _] | [_, _, _] => exact nomatch h
  | p0 :: p1 :: p2 :: op :: t =>
    simp only [decodeEvex, hsz, hf] at h ⊢
    split at h
    · exact nomatch h
    rename_i hop
    split at h
    · exact nomatch h
    rename_i hext
    split at h
    · exact nomatch h
    · simp only [if_neg hop, if_neg hext, if_true]

/-- F-SSE bytes that are accepted after their opcode are of the form F-SSE, and invalid with LOCK before them. -/
theorem decodeSse_of_lock {rex : Option Rex} (h : decodeSse m pre rex t = .ok i rest) :
    i.form = .sse ∧ decodeSse m (.lock :: pre) rex t = .invalid := by
  obtain ⟨-, hsz⟩ := forbidden_cons (p := .lock) (by decide) m pre
  simp only [decodeSse, hsz, List.contains_cons] at h ⊢
  split at h
  · exact nomatch h
  rename_i h66
  split at h
  · exact nomatch h
  rename_i hrep
  split at h
  · exact nomatch h
  rename_i hrm
  split at h
  · exact nomatch h
  cases h
  refine ⟨rfl, ?_⟩
  simp_all

/-- Bytes that are accepted as a legacy encoding are of the form F-SSE, and invalid with LOCK before them. -/
theorem decodeLegacy_of_lock {rex : Option Rex} (h : decodeLegacy m pre rex t = .ok i rest) :
    i.form = .sse ∧ decodeLegacy m (.lock :: pre) rex t = .invalid := by
  match t with
  | [] => exact nomatch h
  | [_] | [_, _] => simp only [decodeLegacy] at h; split at h <;> exact nomatch h
  | b0 :: b1 :: b2 :: t =>
    simp only [decodeLegacy] at h ⊢
    split at h
    · rename_i hop
      rw [if_pos hop]
      exact decodeSse_of_lock h
    · exact nomatch h

/-- Accepted bytes are invalid with one more prefix: LOCK, or for a VEX or EVEX form also `66`, `F2` or `F3`. -/
theorem decode_cons_of_forbidden {p : LegacyPrefix} {bs : List Byte} (hp : forbiddenBeforeVex [p] = true)
    (hi : i.form = .sse → p = .lock) (h : decode m bs = .ok i rest) : decode m (p.byte :: bs) = .invalid := by
  obtain ⟨hforb, hsz⟩ := forbidden_cons hp m (splitPrefixes bs).1
  simp only [decode, splitPrefixes, ofByte_byte] at h ⊢
  rcases decodeBody_cases m (splitPrefixes bs).2 with hb | hb | ⟨rex, t, hb⟩ | ⟨afterRex, t, hb⟩ | ⟨afterRex, t, hb⟩ <;>
    rw [hb] at h ⊢
  · exact nomatch h
  · exact nomatch h
  · obtain ⟨hsse, hinv⟩ := decodeLegacy_of_lock h
    rw [hi hsse, hinv]
  · exact decodeVex_of_forbidden hsz (by rw [hforb, Bool.or_true]) h
  · exact decodeEvex_of_forbidden hsz (by rw [hforb, Bool.or_true]) h

end

/-! ### REX before VEX and EVEX (R65) -/

/-- A REX byte is none of the bytes that are looked for before it. -/
theorem isRex_distinct {c : Byte} (h : Rex.isRex c = true) :
    LegacyPrefix.ofByte c = none ∧ c ≠ 0xC4#8 ∧ c ≠ 0x62#8 := by
  rw [← rex_toByte_ofByte c h]
  exact rex_toByte_distinct ..

/-- In 64-bit mode accepted bytes that begin with `C4` or `62` are invalid with a REX prefix before them. -/
theorem decode_rex_cons {c b : Byte} {t rest : List Byte} {i : Instr} (hc : Rex.isRex c = true)
    (hb : b = 0xC4#8 ∨ b = 0x62#8) (h : decode .mode64 (b :: t) = .ok i rest) :
    decode .mode64 (c :: b :: t) = .invalid := by
  obtain ⟨hpre, hC4, h62⟩ := isRex_distinct hc
  have hcb : decode .mode64 (c :: b :: t) = decodeBody .mode64 [] (c :: b :: t) := decode_of_prefixes _ [] _ hpre
  have hbt : decode .mode64 (b :: t) = decodeBody .mode64 [] (b :: t) :=
    decode_of_prefixes _ [] _ (by rcases hb with rfl | rfl <;> decide)
  rw [hbt] at h
  rw [hcb]
  cases t with
  | nil => rcases hb with rfl | rfl <;> exact nomatch h
  | cons p0 t =>
    rcases hb with rfl | rfl
    · have hvex : decodeVex .mode64 [] false (p0 :: t) = .ok i rest := h
      simpa [decodeBody, hC4, h62, hc] using decodeVex_of_forbidden (afterRex' := true) rfl rfl hvex
    · have hevex : decodeEvex .mode64 [] false (p0 :: t) = .ok i rest := h
      simpa [decodeBody, hC4, h62, hc] using decodeEvex_of_forbidden (afterRex' := true) rfl rfl hevex

/-- A VEX or EVEX encoding without legacy prefixes begins with `C4` or `62`. -/
theorem encode_eq_cons {i : Instr} (hi : i.form ≠ .sse) (hpre : i.prefixes = []) :
    ∃ b t, encode i = b :: t ∧ (b = 0xC4#8 ∨ b = 0x62#8) := by
  cases i with
  | pmuldq => exact absurd rfl hi
  | vpmuldqVex128 | vpmuldqVex256 =>
    obtain rfl := hpre
    exact ⟨_, _, rfl, .inl rfl⟩
  | vpmuldqEvex128 | vpmuldqEvex256 | vpmuldqEvex512 =>
    obtain rfl := hpre
    exact ⟨_, _, rfl, .inr rfl⟩

/-- Settles O43: the encoding alone is accepted, and what is accepted is invalid with the prefix before it. -/
theorem forbiddenPrefixesAreInvalid : Obligations.ForbiddenPrefixesAreInvalid := by
  refine ⟨fun m i rest h => ?_, fun m i rest b h hi hb => ?_, fun i rest c h hi hpre hc => ?_⟩
  · exact decode_cons_of_forbidden (p := .lock) rfl (fun _ => rfl) (decode_encode h rest)
  · obtain ⟨p, hp, rfl⟩ : ∃ p : LegacyPrefix, forbiddenBeforeVex [p] = true ∧ p.byte = b := by
      rcases hb with rfl | rfl | rfl
      · exact ⟨.opSize, rfl, rfl⟩
      · exact ⟨.repne, rfl, rfl⟩
      · exact ⟨.rep, rfl, rfl⟩
    exact decode_cons_of_forbidden hp (fun hs => absurd hs hi) (decode_encode h rest)
  · obtain ⟨b, t, henc, hb⟩ := encode_eq_cons hi hpre
    have hok := decode_encode h rest
    rw [henc] at hok ⊢
    exact decode_rex_cons hc hb hok

/-! ### EVEX field values (R51, R53 to R55, R64) -/

theorem maskingOf_eq_none_iff (aaa : BitVec 3) (z : Bool) : maskingOf aaa z = none ↔ z = true ∧ aaa = 0#3 := by
  revert aaa z; decide

theorem evexSrcOf_reg_eq_none_iff (b x : Bool) (n : GprNum) : evexSrcOf b (.reg x n) = none ↔ b = true := by
  cases b <;> simp [evexSrcOf]

theorem evexInstrOf_eq_none_iff (ll : BitVec 2) (pre : List LegacyPrefix) (d a : VecNum) (mk : Masking) (src : EvexSrc) :
    evexInstrOf ll pre d a mk src = none ↔ ll = 3#2 := by
  have hfour : ∀ l : BitVec 2, l ≠ 0#2 → l ≠ 1#2 → l ≠ 2#2 → l = 3#2 := by decide
  unfold evexInstrOf
  split
  · rename_i h0; simp [h0]
  split
  · rename_i h1; simp [h1]
  split
  · rename_i h2; simp [h2]
  · rename_i h0 h1 h2; exact iff_of_true rfl (hfour ll h0 h1 h2)

/-- The field values of an EVEX form with a register operand that name no instruction. -/
theorem evexInstr_reg_eq_none_iff (pre : List LegacyPrefix) (f : EvexP0) (g : EvexP1) (p : EvexP2) (reg : BitVec 3)
    (x : Bool) (n : GprNum) : evexInstr pre f g p reg (.reg x n) = none ↔
      f.rsv ≠ 0#2 ∨ g.one = false ∨ g.w = false ∨ p.ll = 3#2 ∨ (p.z = true ∧ p.aaa = 0#3) ∨ p.b = true := by
  rw [← maskingOf_eq_none_iff, ← evexSrcOf_reg_eq_none_iff p.b x n]
  unfold evexInstr
  split
  · rename_i hfix; tauto
  · rename_i hfix
    split
    · rename_i hmk hsrc
      rw [evexInstrOf_eq_none_iff, hmk, hsrc]
      simp only [reduceCtorEq]
      tauto
    · rename_i hnone
      cases hmk : maskingOf p.aaa p.z with
      | none => simp
      | some mk =>
        cases hsrc : evexSrcOf p.b (.reg x n) with
        | none => simp
        | some src => exact absurd hsrc (hnone mk src hmk)

/-- EVEX bytes of this instruction with a register operand are invalid exactly when their fields name no instruction. -/
theorem decode_evex_reg_eq_invalid_iff {p0 p1 p2 mrm : Byte} (hmm : p0.extractLsb' 0 2 = 2#2)
    (hpp : p1.extractLsb' 0 2 = 1#2) (hmod : mrm.extractLsb' 6 2 = 3#2) :
    ∃ reg x n, decode .mode64 [0x62#8, p0, p1, p2, 0x28#8, mrm] = .invalid ↔
      evexInstr [] (EvexP0.ofByte p0) (EvexP1.ofByte p1) (EvexP2.ofByte p2) reg (.reg x n) = none := by
  refine ⟨(ModRM.ofByte mrm).reg, (EvexP0.ofByte p0).x, ext4 (EvexP0.ofByte p0).b (ModRM.ofByte mrm).rm, ?_⟩
  have hsplit : decode .mode64 [0x62#8, p0, p1, p2, 0x28#8, mrm] = decodeEvex .mode64 [] false [p0, p1, p2, 0x28#8, mrm] :=
    decode_of_prefixes _ [] _ (by decide)
  have hrm : decodeRM (addrSizeOf .mode64 []) (EvexP0.ofByte p0).x (EvexP0.ofByte p0).b [mrm] =
      some ((ModRM.ofByte mrm).reg, .reg (EvexP0.ofByte p0).x (ext4 (EvexP0.ofByte p0).b (ModRM.ofByte mrm).rm), []) :=
    if_pos hmod
  have hmap : (EvexP0.ofByte p0).mm = 2#2 := hmm
  have hpp66 : (EvexP1.ofByte p1).pp = 1#2 := hpp
  have hforb : (false || forbiddenBeforeVex []) = false := rfl
  rw [hsplit]
  simp only [decodeEvex, hmap, hpp66, hrm, hforb, ne_eq, not_true_eq_false, or_self, false_and, Bool.false_eq_true, if_false]
  cases evexInstr [] (EvexP0.ofByte p0) (EvexP1.ofByte p1) (EvexP2.ofByte p2) (ModRM.ofByte mrm).reg
    (.reg (EvexP0.ofByte p0).x (ext4 (EvexP0.ofByte p0).b (ModRM.ofByte mrm).rm)) <;> simp

/-- Settles O45: each field value that names no instruction is one of those listed. -/
theorem evexFieldValuesThatRaiseUd : Obligations.EvexFieldValuesThatRaiseUd := by
  intro p0 p1 p2 mrm hmm hpp hmod
  obtain ⟨reg, x, n, hd⟩ := decode_evex_reg_eq_invalid_iff (p2 := p2) hmm hpp hmod
  exact hd.trans
    (evexInstr_reg_eq_none_iff [] (EvexP0.ofByte p0) (EvexP1.ofByte p1) (EvexP2.ofByte p2) reg x n)

end Sys2Proof

namespace Sys2Proof.Machine

/-! ### A step on code that is too long or locked (R41, R112) -/

/-- Where 15 code bytes can be read and need more, the instruction is too long. -/
theorem step_of_more_full {s : State} (hd : decode s.mode (window s).1 = .more) (hw : (window s).2 = none) :
    step s = .fault (.gp0 (ip s)) := by
  simp only [step, fetch, hd, hw, raiseException]

/-- Where the bytes that can be read are an invalid encoding, the step raises #UD. -/
theorem step_of_invalid {s : State} (hd : decode s.mode (window s).1 = .invalid) : step s = .fault (.ud (ip s)) := by
  simp only [step, fetch, hd, raiseException]

/-- Settles O48: the window is the first 15 bytes of the encoding, a proper initial part of it. -/
theorem tooLongInstructionRaisesGp : Obligations.TooLongInstructionRaisesGp := by
  intro s i hwf hlong hcode
  have henc : 15 < (encode i).length := hlong.trans_eq (encode_length i).symm
  have hlen : ((encode i).take 15).length = 15 := List.length_take_of_le henc.le
  obtain ⟨-, -, hwin⟩ := codeBytes_prefix s ((encode i).take 15) maxLength (fetchAddress s) hlen.le fun j hj => by
    obtain ⟨hread, hbyte⟩ := hcode j (hj.trans_eq hlen)
    rw [List.getElem_take]
    exact ⟨hread, ((List.getElem?_eq_some_iff.1 hbyte).2).symm⟩
  have hfull : window s = ((encode i).take 15, none) := by
    rw [window, hwin, hlen]
    exact Prod.ext (List.append_nil _) rfl
  refine step_of_more_full ?_ (by rw [hfull])
  rw [hfull]
  exact decode_take_encode hwf henc

/-- Settles O50: the stored bytes head the window, and LOCK makes them invalid whatever follows. -/
theorem lockedInstructionRaisesUd : Obligations.LockedInstructionRaisesUd := by
  intro s i hwf hlen hcode
  have henc : (0xF0#8 :: encode i).length = i.length + 1 := by rw [List.length_cons, encode_length]
  obtain ⟨rest, hwin, -⟩ := codeBytes_prefix s (0xF0#8 :: encode i) maxLength (fetchAddress s) (henc.trans_le hlen)
    fun j hj => by
      obtain ⟨hread, hbyte⟩ := hcode j (hj.trans_eq henc)
      exact ⟨hread, ((List.getElem?_eq_some_iff.1 hbyte).2).symm⟩
  refine step_of_invalid ?_
  rw [window, hwin]
  exact forbiddenPrefixesAreInvalid.1 s.mode i rest hwf

end Sys2Proof.Machine
end

section
/-! PROOFS. Effective addresses of 64-bit and 32-bit addressing (R57, R58, R60), the scaling of displacements (R56), segment
overrides and the stack segment (R34, R59), the refusals of R60 and D20, and bits without effect (R43, R50, R64, R65). -/

namespace Sys2Proof.Machine

/-! ### Effective addresses (R57, R58, R60) -/

/-- Scaling an index register is multiplying it by a power of two. -/
theorem indexPart_some (s : State) (sc : BitVec 2) (i : GprNum) :
    indexPart s sc (some i) = readX s i * BitVec.ofNat 64 (2 ^ sc.toNat) := by
  apply BitVec.eq_of_toNat_eq
  simp [indexPart, Nat.shiftLeft_eq]

/-- Settles O32: with 64-bit addresses nothing is cut off the sum, and registers are read in full. -/
theorem addressTableIn64BitMode : Obligations.AddressTableIn64BitMode := by
  intro s pre n len hm hpre
  have hsz : addrSizeOf s.mode pre = .a64 := by simp only [hm, addrSizeOf, hpre]; rfl
  have hea : ∀ ad, effectiveAddress s pre n len ad = rawAddress s n len ad := fun ad => by
    rw [effectiveAddress, hsz]
    cases rawAddress s n len ad <;> rfl
  have hx : ∀ r, readX s r = s.gpr[r.toNat] := fun r => by simp only [readX, hm]
  have hnext : nextIp s len = s.pc + BitVec.ofNat 64 len := by simp only [nextIp, ip, hm]
  simp only [hea]
  refine ⟨fun x b disp => ?_, fun sc b disp => ?_, fun sc i b disp => ?_, fun b sc d => ?_, fun b sc i d => ?_,
    fun x b d => ?_⟩
  · rw [rawAddress, hx]
  · rw [rawAddress, hx, indexPart, BitVec.add_zero]
  · rw [rawAddress, indexPart_some, hx, hx]
  · rw [rawAddress, indexPart, BitVec.add_zero]
  · rw [rawAddress, indexPart_some, hx]
  · simp only [rawAddress, hm, hnext]

/-- The low 32 bits of a general register, as a form reads it, are those of its 64-bit field in every mode. -/
theorem readX_setWidth (s : State) (r : GprNum) : (readX s r).setWidth 32 = (s.gpr[r.toNat]).setWidth 32 := by
  unfold readX low32
  cases s.mode <;> simp

/-- The low 32 bits of the next instruction's address are those of the `pc` field plus the length in every mode. -/
theorem nextIp_setWidth (s : State) (len : Nat) :
    (nextIp s len).setWidth 32 = s.pc.setWidth 32 + BitVec.ofNat 32 len := by
  have hip : (ip s).setWidth 32 = s.pc.setWidth 32 := by
    unfold ip low32
    cases s.mode <;> simp
  rw [nextIp, BitVec.setWidth_add _ _ (by decide), hip, BitVec.setWidth_ofNat_of_le (by decide)]

/-- The low 32 bits of a scaled index. -/
theorem indexPart_setWidth (s : State) (sc : BitVec 2) (i : GprNum) :
    (indexPart s sc (some i)).setWidth 32 = (s.gpr[i.toNat]).setWidth 32 * BitVec.ofNat 32 (2 ^ sc.toNat) := by
  rw [indexPart_some, BitVec.setWidth_mul _ _ (by decide), readX_setWidth, BitVec.setWidth_ofNat_of_le (by decide)]

/-- A 32-bit displacement is the low half of its sign extension. -/
theorem signExtend_setWidth (d : Dword) : (d.signExtend 64).setWidth 32 = d := by
  ext i hi
  rw [BitVec.getElem_setWidth, BitVec.getLsbD_signExtend]
  simp [hi, hi.trans (by decide : 32 < 64)]

/-- Settles O33: the low 32 bits of a sum are the sum of the low 32 bits of its parts. -/
theorem addressesOf32BitAddressing : Obligations.AddressesOf32BitAddressing := by
  intro s pre n len h
  have hsz : addrSizeOf s.mode pre = .a32 := by
    rcases h with ⟨hm, hpre⟩ | ⟨hm, hpre⟩ <;> simp only [hm, addrSizeOf, hpre] <;> rfl
  have hea : ∀ ad, effectiveAddress s pre n len ad = (rawAddress s n len ad).map low32 := fun ad => by
    rw [effectiveAddress, hsz]; rfl
  have hadd : ∀ x y : Qword, (x + y).setWidth 32 = x.setWidth 32 + y.setWidth 32 := fun x y =>
    BitVec.setWidth_add x y (by decide)
  simp only [hea]
  refine ⟨fun ad ea hsome => ?_, fun x b disp => ?_, fun sc b disp => ?_, fun sc i b disp => ?_, fun b sc d => ?_,
    fun b sc i d => ?_, fun x b d => ?_⟩
  · obtain ⟨x, -, rfl⟩ := Option.map_eq_some_iff.1 hsome
    rw [low32, BitVec.toNat_setWidth_of_le (by decide)]
    exact BitVec.isLt _
  · simp only [rawAddress, Option.map_some, low32, hadd, readX_setWidth]
  · simp only [rawAddress, Option.map_some, low32, indexPart, BitVec.add_zero, hadd, readX_setWidth]
  · simp only [rawAddress, Option.map_some, low32, hadd, readX_setWidth, indexPart_setWidth]
  · simp only [rawAddress, Option.map_some, low32, indexPart, BitVec.add_zero, signExtend_setWidth]
  · simp only [rawAddress, Option.map_some, low32, hadd, indexPart_setWidth, signExtend_setWidth]
  · rcases h with ⟨hm, -⟩ | ⟨hm, -⟩
    · simp only [rawAddress, hm, Option.map_some, low32, hadd, nextIp_setWidth, signExtend_setWidth, if_true]
    · simp only [rawAddress, hm, Option.map_some, low32, signExtend_setWidth, reduceCtorEq, if_false]

/-! ### Displacements (R56) -/

/-- An 8-bit displacement times a scale of at most 64 is exact. -/
theorem dispValue_d8_toInt (b : Byte) {n : Nat} (hn : n ≤ 64) : (dispValue n (.d8 b)).toInt = n * b.toInt := by
  have hb : -128 ≤ b.toInt := b.le_toInt
  have hb' : b.toInt < 128 := b.toInt_lt
  have hn0 : (0 : Int) ≤ n := Int.natCast_nonneg n
  have hn64 : (n : Int) ≤ 64 := by exact_mod_cast hn
  have hext : (b.signExtend 64).toInt = b.toInt := BitVec.toInt_signExtend_of_le (by decide)
  have hscale : (BitVec.ofNat 64 n).toInt = n := by
    simp only [BitVec.toInt_eq_toNat_bmod, BitVec.toNat_ofNat]
    rw [Int.bmod_eq_of_le] <;> omega
  have hlo : -(64 * 128 : Int) ≤ n * b.toInt := by nlinarith
  have hhi : n * b.toInt ≤ (64 * 128 : Int) := by nlinarith
  rw [dispValue, BitVec.toInt_mul, hext, hscale, mul_comm, Int.bmod_eq_of_le] <;> omega

/-- The scale of an instruction's 8-bit displacement is the operand's bytes in the EVEX forms, 1 in the others. -/
theorem memOperand_scale {i : Instr} {a : Addr} {n bytes : Nat} (h : memOperand i = some (a, n, bytes)) :
    n = if isEvex i.form = true then bytes else 1 := by
  cases i with
  | pmuldq _ _ _ src | vpmuldqVex128 _ _ _ _ src | vpmuldqVex256 _ _ _ _ src =>
    cases src with
    | reg => exact nomatch h
    | mem a => cases h; rfl
  | vpmuldqEvex128 _ _ _ _ src | vpmuldqEvex256 _ _ _ _ src | vpmuldqEvex512 _ _ _ _ src =>
    match src with
    | .rm (.reg _ _) => exact nomatch h
    | .rm (.mem a) | .bcst a => cases h; rfl

/-- Settles O34. -/
theorem displacementScaling : Obligations.DisplacementScaling := by
  refine ⟨fun b => ?_, fun d n => BitVec.toInt_signExtend_of_le (by decide), fun i a n bytes => memOperand_scale⟩
  refine ⟨?_, dispValue_d8_toInt b (by decide), dispValue_d8_toInt b (by decide), dispValue_d8_toInt b (by decide),
    dispValue_d8_toInt b (by decide)⟩
  rw [dispValue_d8_toInt b (by decide), Nat.cast_one, one_mul]

/-! ### Segments (R34, R57, R59) -/

/-- The overrides listed are the prefixes that select a segment. -/
theorem mem_overrides_iff (pre : List LegacyPrefix) (q : Seg × Byte) :
    q ∈ overrides pre ↔ ∃ p ∈ pre, p.seg = some q.1 ∧ p.byte = q.2 := by
  obtain ⟨g, c⟩ := q
  simp [overrides, List.mem_filterMap, Option.map_eq_some_iff]

/-- The override that counts is one of those listed. -/
theorem overrideOf_mem {pre : List LegacyPrefix} {g : Seg} (h : overrideOf pre = some g) :
    ∃ c, (g, c) ∈ overrides pre := by
  unfold overrideOf at h
  split at h
  · exact nomatch h
  rename_i g' c t hov
  rw [hov]
  split at h
  · cases h
    exact ⟨c, List.mem_cons_self⟩
  · cases h
    have hlt : Config.segmentPick (c :: t.map Prod.snd) % (t.length + 1) < ((g', c) :: t).length :=
      Nat.mod_lt _ (Nat.succ_pos _)
    rw [List.getD_eq_getElem _ _ hlt]
    exact ⟨_, List.getElem_mem hlt⟩

/-- The override that counts is that of one of the prefixes. -/
theorem seg_of_overrideOf {pre : List LegacyPrefix} {g : Seg} (h : overrideOf pre = some g) :
    ∃ p ∈ pre, p.seg = some g := by
  obtain ⟨c, hc⟩ := overrideOf_mem h
  obtain ⟨p, hp, hseg, -⟩ := (mem_overrides_iff pre (g, c)).1 hc
  exact ⟨p, hp, hseg⟩

/-- No override counts exactly when no prefix selects a segment. -/
theorem overrideOf_eq_none_iff (pre : List LegacyPrefix) : overrideOf pre = none ↔ ∀ p ∈ pre, p.seg = none := by
  constructor
  · intro h p hp
    cases hseg : p.seg with
    | none => rfl
    | some g =>
      have hmem : (g, p.byte) ∈ overrides pre := (mem_overrides_iff pre _).2 ⟨p, hp, hseg, rfl⟩
      unfold overrideOf at h
      split at h
      · rename_i hov
        rw [hov] at hmem
        exact absurd hmem List.not_mem_nil
      · split at h <;> exact nomatch h
  · intro h
    cases ho : overrideOf pre with
    | none => rfl
    | some g =>
      obtain ⟨p, hp, hseg⟩ := seg_of_overrideOf ho
      rw [h p hp] at hseg
      exact nomatch hseg

/-- Where a prefix selects a segment, some override counts. -/
theorem overrideOf_some {pre : List LegacyPrefix} (h : ∃ p ∈ pre, p.seg ≠ none) : ∃ g, overrideOf pre = some g := by
  obtain ⟨p, hp, hseg⟩ := h
  exact Option.ne_none_iff_exists'.1 fun hnone => hseg ((overrideOf_eq_none_iff pre).1 hnone p hp)

/-- The override on which all prefixes agree that select a segment is the one that counts. -/
theorem overrideOf_of_agree {pre : List LegacyPrefix} {g : Seg} (hex : ∃ p ∈ pre, p.seg = some g)
    (hall : ∀ p ∈ pre, p.seg = none ∨ p.seg = some g) : overrideOf pre = some g := by
  obtain ⟨p, hp, hg⟩ := hex
  obtain ⟨g', ho⟩ := overrideOf_some ⟨p, hp, by simp [hg]⟩
  obtain ⟨p', hp', hseg⟩ := seg_of_overrideOf ho
  rcases hall p' hp' with hnone | hsome
  · rw [hseg] at hnone; exact nomatch hnone
  · rw [ho, ← hseg, hsome]

/-- The segment base of every override but FS and GS, and of none, is zero. -/
theorem segmentBase_eq_zero {s : State} {pre : List LegacyPrefix} (hfs : overrideOf pre ≠ some .fs)
    (hgs : overrideOf pre ≠ some .gs) : segmentBase s pre = 0#64 := by
  unfold segmentBase
  split
  · rename_i h; exact absurd h hfs
  · rename_i h; exact absurd h hgs
  all_goals rfl

/-- The stack segment is used with an SS override, or where it is the default and there is none. -/
theorem usesStack_iff (pre : List LegacyPrefix) (a : Addr) :
    usesStack pre a = true ↔ overrideOf pre = some .ss ∨ overrideOf pre = none ∧ defaultStack a = true := by
  unfold usesStack
  cases overrideOf pre <;> simp

/-- A base register selects the stack segment by the three bits of its field. -/
theorem stackBase_iff (b : GprNum) : stackBase b = true ↔ b.extractLsb' 0 3 = 4#3 ∨ b.extractLsb' 0 3 = 5#3 := by
  simp [stackBase, low3]

/-- Settles O35: which override counts, what it adds, and when the access uses the stack segment. -/
theorem segmentOverrides : Obligations.SegmentOverrides := by
  refine ⟨⟨rfl, rfl, rfl, rfl, rfl, rfl, rfl, rfl, rfl, rfl, rfl⟩, fun pre => ⟨?_, ?_, ?_⟩, fun s pre => ⟨?_, ?_, ?_⟩,
    fun s pre n len ad => ⟨?_, ?_⟩, fun pre => ⟨?_, ?_, ?_, ?_⟩⟩
  · exact (overrideOf_eq_none_iff pre).2
  · exact fun g => overrideOf_of_agree
  · intro hex
    obtain ⟨g, ho⟩ := overrideOf_some hex
    obtain ⟨p, hp, hseg⟩ := seg_of_overrideOf ho
    exact ⟨p, hp, by simp [hseg], by rw [ho, hseg]⟩
  · intro h; simp only [segmentBase, h]
  · intro h; simp only [segmentBase, h]
  · exact segmentBase_eq_zero
  · intro h; rw [linearAddress, h]; rfl
  · intro ea h
    constructor <;> intro hm <;> simp only [linearAddress, h, hm, Option.map_some, low32]
  · intro x b disp; rw [usesStack_iff, defaultStack, stackBase_iff]
  · intro sc i b disp; rw [usesStack_iff, defaultStack, stackBase_iff]
  · intro b sc i d; rw [usesStack_iff]; simp [defaultStack]
  · intro x b d; rw [usesStack_iff]; simp [defaultStack]

/-! ### Refusals of R60 and D20 -/

/-- An operand under 16-bit addressing has no address. -/
theorem operandAddress_addr16 (s : State) (f : Form) (pre : List LegacyPrefix) (n bytes len : Nat) (md : BitVec 2)
    (rm : BitVec 3) : operandAddress s f pre n bytes len (.addr16 md rm) = .refuse .addressing16 := rfl

/-- Settles O28: an operand without an address is refused, and so is what is available in a mode outside the spec. -/
theorem sixteenBitAddressingAndOldModesRefused : Obligations.SixteenBitAddressingAndOldModesRefused := by
  constructor
  · intro s i md rm n bytes hr hm
    obtain ⟨g, hg⟩ := source2_mem i s _ n bytes hm
    exact exec_of_refuse hr (by rw [hg, operandAddress_addr16, Read.map])
  · intro s i hi hmode hfeat hos hts
    have havail : checkAvailable .sse s = none := (checkAvailable_eq_none .sse s).2 ⟨hfeat, .inl rfl, hos, hts⟩
    rw [exec_shape, hi]
    simp only [runForm, havail, hmode, Bool.false_eq_true, if_false]

/-! ### Bits without effect (R43, R50, R64, R65) -/

/-- What an instruction does depends on its form, its length, its destination, its second source as read, and its result. -/
theorem exec_congr {i j : Instr} {s : State} (hform : i.form = j.form) (hlen : i.length = j.length)
    (hdest : i.dest = j.dest) (hres : resultOf i s = resultOf j s)
    (hsrc : source2 s i.form i.prefixes i.length (sourceOf i) = source2 s j.form j.prefixes j.length (sourceOf j)) :
    exec i s = exec j s := by
  rw [exec_shape i, exec_shape j, hsrc, hform, hlen, hdest, hres]

/-- Settles O44: in each case the form, the destination and the sources as read are the same, and so is the length. -/
theorem ignoredBitsHaveNoEffect : Obligations.IgnoredBitsHaveNoEffect := by
  refine ⟨fun s pre w w' d src => exec_congr rfl rfl rfl rfl rfl, fun s pre pre' hlen => ⟨?_, ?_, ?_⟩⟩
  · intro rex d x x' n
    exact exec_congr rfl (by simp only [Instr.length, lengthSse, hlen, RegMem.tailLength]) rfl rfl rfl
  · intro w d a x x' n
    have hvex : lengthVex pre (.reg x n) = lengthVex pre' (.reg x' n) := by
      simp only [lengthVex, hlen, RegMem.tailLength]
    exact ⟨exec_congr rfl hvex rfl rfl rfl, exec_congr rfl hvex rfl rfl rfl⟩
  · intro d a mk x n
    have hevex : lengthEvex pre (.rm (.reg x n)) = lengthEvex pre' (.rm (.reg x n)) := by
      simp only [lengthEvex, hlen]
    exact ⟨exec_congr rfl hevex rfl rfl rfl, exec_congr rfl hevex rfl rfl rfl, exec_congr rfl hevex rfl rfl rfl⟩

end Sys2Proof.Machine
end

section
/-! PROOFS. `LaneMul` is the exact signed product (R71) and `PackedMul` applies it to the even doublewords (R72); what F-SSE
writes and keeps (R73 to R75); the odd doublewords have no influence (R72); a run is a straight line (R76, R133). -/

namespace Sys2Proof.Machine

/-! ### `LaneMul` (R71) -/

/-- 64 bits hold the product of two doublewords, so the multiplication does not wrap. -/
theorem laneMul_toInt (a b : Dword) : (laneMul a b).toInt = a.toInt * b.toInt := by
  unfold laneMul
  rw [BitVec.toInt_mul, BitVec.toInt_signExtend_of_le (by decide), BitVec.toInt_signExtend_of_le (by decide)]
  have hlo := BitVec.le_toInt_mul_toInt (x := a) (y := b)
  have hhi := BitVec.toInt_mul_toInt_le (x := a) (y := b)
  exact Int.bmod_eq_of_le_mul_two (by omega) (by omega)

/-- The least product is that of the least doubleword and the greatest. -/
theorem le_toInt_mul_toInt_dword (a b : Dword) : -2 ^ 62 + 2 ^ 31 ≤ a.toInt * b.toInt := by
  have halo : -2 ^ 31 ≤ a.toInt := BitVec.le_toInt a
  have hahi : a.toInt < 2 ^ 31 := BitVec.toInt_lt
  have hblo : -2 ^ 31 ≤ b.toInt := BitVec.le_toInt b
  have hbhi : b.toInt < 2 ^ 31 := BitVec.toInt_lt
  rcases le_total 0 a.toInt with ha | ha
  · have hmul := mul_le_mul_of_nonneg_left hblo ha
    omega
  · have hmul := mul_le_mul_of_nonpos_left (Int.le_sub_one_of_lt hbhi) ha
    omega

theorem laneMul_toInt_le (a b : Dword) : (laneMul a b).toInt ≤ 2 ^ 62 :=
  (laneMul_toInt a b).trans_le BitVec.toInt_mul_toInt_le

theorem laneMul_comm (a b : Dword) : laneMul a b = laneMul b a := BitVec.mul_comm _ _

/-- Settles O1: range and signs are those of the product of the integers. -/
theorem laneMulIsExactSignedProduct : Obligations.LaneMulIsExactSignedProduct := by
  refine ⟨fun a b => ⟨laneMul_toInt a b, ?_, laneMul_toInt_le a b, laneMul_comm a b, ?_, ?_, ?_, ?_⟩, ?_, ?_, ?_⟩
  · exact (le_toInt_mul_toInt_dword a b).trans_eq (laneMul_toInt a b).symm
  · simp [laneMul]
  · simp [laneMul]
  · rw [laneMul_toInt]
    exact mul_nonneg_iff.2
  · rw [laneMul_toInt]
    exact mul_nonpos_iff.2
  all_goals decide

/-! ### `PackedMul` (R72) -/

/-- Registers that agree in their lanes from `kl` on agree in their bits from `64 * kl` on. -/
theorem vecBits_congr_above {x y : Vec} {kl : Nat} (h : ∀ j (hj : j < 8), kl ≤ j → x[j] = y[j]) {i : Nat}
    (hi : 64 * kl ≤ i) : (vecBits x).getLsbD i = (vecBits y).getLsbD i := by
  by_cases hb : i < 512
  · rw [vecBits_getLsbD x i hb, vecBits_getLsbD y i hb, h (i / 64) (by omega) (by omega)]
  · rw [BitVec.getLsbD_of_ge _ _ (by omega), BitVec.getLsbD_of_ge _ _ (by omega)]

/-- `PackedMul` depends on the even doublewords of the first `kl` lanes only. -/
theorem packedMul_congr {kl : Nat} {x y x' y' : Vec}
    (h : ∀ j (hj : j < 8), j < kl → evenDword x'[j] = evenDword x[j] ∧ evenDword y'[j] = evenDword y[j]) :
    packedMul kl x' y' = packedMul kl x y := by
  ext1 j hj
  rw [packedMul_getElem, packedMul_getElem]
  by_cases hk : j < kl
  · obtain ⟨hx, hy⟩ := h j hj hk
    rw [hx, hy]
  · rw [if_neg hk, if_neg hk]

/-- Settles O2: bits `[64j+63:64j]` are lane `j`, and bits `[64j+31:64j]` its even doubleword. -/
theorem packedMulMultipliesEvenDoublewords : Obligations.PackedMulMultipliesEvenDoublewords := by
  intro kl hkl x y
  have hle : kl ≤ 8 := by omega
  refine ⟨fun j hj => ?_, fun i hi => ?_, fun x' y' h => packedMul_congr fun j hj hk => ?_⟩
  · have h8 : j < 8 := hj.trans_le hle
    rw [vecBits_lane _ j h8, vecBits_even x j h8, vecBits_even y j h8, packedMul_getElem, if_pos hj]
  · refine vecBits_zero_above _ kl (fun j hj hk => ?_) i hi
    rw [packedMul_getElem, if_neg hk.not_gt]
  · rw [← vecBits_even x' j hj, ← vecBits_even y' j hj, ← vecBits_even x j hj, ← vecBits_even y j hj]
    exact h j hk

/-! ### Bits and lanes of a register (R10), and completing (R16) -/

/-- `MAX_VL` is at least 128 (R4). -/
theorem two_le_lanes (m : MaxVL) : 2 ≤ m.lanes := by
  cases m <;> decide

theorem kl_le_eight (f : Form) : f.kl ≤ 8 := by
  cases f <;> decide

/-- What is read from a register has nothing above `MAX_VL`. -/
@[simp] theorem lowLanes_readV (s : State) (n : VecNum) : lowLanes s.cpu.maxVL.lanes (readV s n) = readV s n :=
  lowLanes_lowLanes _ _

/-- A register has no bit from `MAX_VL` on. -/
theorem bitOf_above_maxVL (s : State) (n : VecNum) {i : Nat} (hi : s.cpu.maxVL.bits ≤ i) : bitOf s n i = false := by
  refine vecBits_zero_above _ s.cpu.maxVL.lanes (fun j hj hl => ?_) i hi
  rw [readV, lowLanes_getElem, if_neg hl.not_gt]

/-- Element `j` of the destination after completion. -/
theorem laneOf_completed (s : State) (d : VecNum) (x : Vec) (p : Qword) {j : Nat} (hj : j < 8) :
    laneOf (completed s d x p) d j = if j < s.cpu.maxVL.lanes then x[j] else 0#64 := by
  rw [laneOf_eq _ _ _ hj, readV_completed, lowLanes_getElem]

/-- Replacing the low lanes of the destination keeps its bits above them (R74). -/
theorem bitOf_completed_replaceLow (s : State) (d : VecNum) (kl : Nat) (x : Vec) (p : Qword) {i : Nat}
    (hi : 64 * kl ≤ i) : bitOf (completed s d (replaceLow kl (readV s d) x) p) d i = bitOf s d i := by
  unfold bitOf
  rw [readV_completed, ← lowLanes_readV s d]
  refine vecBits_congr_above (fun j hj hk => ?_) hi
  rw [lowLanes_getElem, lowLanes_getElem, replaceLow_getElem, if_neg hk.not_gt, lowLanes_readV]

/-- The instruction pointer after completion (R16). -/
theorem ip_completed {s : State} {len : Nat} (hn : NextFits len s) (d : VecNum) (x : Vec) :
    (ip (completed s d x (BitVec.ofNat 64 ((ip s).toNat + len)))).toNat = (ip s).toNat + len :=
  ip_advanced len (writeV s d x) hn

/-! ### What F-SSE and the VEX forms write (R73, R80, R81) -/

/-- The register of the first source; for F-SSE it is the destination. -/
def firstSourceOf : Instr → VecNum
  | .pmuldq _ _ d _ => d.setWidth 5
  | .vpmuldqVex128 _ _ _ a _ => a.setWidth 5
  | .vpmuldqVex256 _ _ _ a _ => a.setWidth 5
  | .vpmuldqEvex128 _ _ a _ _ => a
  | .vpmuldqEvex256 _ _ a _ _ => a
  | .vpmuldqEvex512 _ _ a _ _ => a

/-- Element `j` that an F-SSE or VEX form computes. -/
theorem resultOf_getElem {i : Instr} (hi : isEvex i.form = false) (s : State) (y : Vec) {j : Nat} (hj : j < 8)
    (hk : j < i.form.kl) :
    (resultOf i s y)[j] = laneMul (evenOf s (firstSourceOf i) j) (evenDword y[j]) := by
  rw [evenOf_eq _ _ _ hj]
  cases i with
  | pmuldq pre rex d src =>
    exact ((replaceLow_getElem ..).trans (if_pos hk)).trans ((packedMul_getElem ..).trans (if_pos hk))
  | vpmuldqVex128 pre w d a src => exact (packedMul_getElem ..).trans (if_pos hk)
  | vpmuldqVex256 pre w d a src => exact (packedMul_getElem ..).trans (if_pos hk)
  | vpmuldqEvex128 | vpmuldqEvex256 | vpmuldqEvex512 => exact nomatch hi

/-- Element `j` of the destination of an F-SSE or VEX form that completes, cut to `MAX_VL`. -/
theorem laneOf_completed_result {i : Instr} (hi : isEvex i.form = false) (s : State) (y : Vec) (p : Qword) {j : Nat}
    (hj : j < 8) (hk : j < i.form.kl) :
    laneOf (completed s i.dest (resultOf i s y) p) i.dest j =
      if j < s.cpu.maxVL.lanes then laneMul (evenOf s (firstSourceOf i) j) (evenDword y[j]) else 0#64 := by
  rw [laneOf_completed _ _ _ _ hj, resultOf_getElem hi s y hj hk]

/-- Settles O4: the source has the value that `SourceGives` names, and the product of the lanes is exact. -/
theorem pmuldqCompletesWithProducts : Obligations.PmuldqCompletesWithProducts := by
  intro s pre rex d src g hr hn hg
  obtain ⟨y, hy, hyg⟩ := source2_of_gives hg
  refine ⟨_, exec_of_value (i := .pmuldq pre rex d src) hr hn hy, frameExcept_completed hn _ _, fun j hj => ?_,
    fun i hi => bitOf_completed_replaceLow s _ 2 _ _ hi⟩
  have h8 : j < 8 := by omega
  rw [← hyg j h8 hj]
  refine (congrArg BitVec.toInt ?_).trans (laneMul_toInt _ _)
  exact (laneOf_completed_result (i := .pmuldq pre rex d src) rfl s y _ h8 hj).trans
    (if_pos (hj.trans_le (two_le_lanes _)))

/-- Settles O10: the result is the old value with its low two lanes replaced; with `MAX_VL` = 128 there is nothing else. -/
theorem pmuldqKeepsUpperBits : Obligations.PmuldqKeepsUpperBits := by
  intro s t pre rex d src h
  obtain ⟨-, -, y, -, rfl⟩ := exec_next h
  refine ⟨fun i hi => bitOf_completed_replaceLow s _ 2 _ _ hi, fun hvl i hi => bitOf_above_maxVL _ _ ?_⟩
  rw [completed_cpu, hvl]
  exact hi

/-- Settles O11: the second source is the destination, so each product is a square. -/
theorem pmuldqSameRegisterSquares : Obligations.PmuldqSameRegisterSquares := by
  intro s pre rex d x hr hn
  obtain ⟨t, ht, -, hprod, -⟩ :=
    pmuldqCompletesWithProducts s pre rex d (.reg x d) (evenOf s (d.setWidth 5)) hr hn fun _ _ => rfl
  refine ⟨t, ht, fun j hj => ?_⟩
  have hlane : laneOf t (d.setWidth 5) j = laneMul (evenOf s (d.setWidth 5) j) (evenOf s (d.setWidth 5) j) :=
    BitVec.eq_of_toInt_eq ((hprod j hj).trans (laneMul_toInt _ _).symm)
  have hsq : (laneOf t (d.setWidth 5) j).toInt = (evenOf s (d.setWidth 5) j).toInt ^ 2 :=
    (hprod j hj).trans (sq _).symm
  refine ⟨hlane, hsq, hsq ▸ sq_nonneg _, ?_⟩
  rw [hlane]
  exact laneMul_toInt_le _ _

/-! ### The odd doublewords (R72) -/

/-- The second source of a state whose vector registers are others with the same even doublewords has a value again, with the
same even doublewords: a memory operand does not look at them. -/
theorem source2_of_even_eq {s : State} {v : Vector Vec 32} {f : Form} {pre : List LegacyPrefix} {len : Nat}
    {src : EvexSrc} {y : Vec}
    (heven : ∀ (n : VecNum) (j : Nat), j < 8 → evenOf { s with v := v } n j = evenOf s n j)
    (hy : source2 s f pre len src = .value y) :
    ∃ y', source2 { s with v := v } f pre len src = .value y' ∧
      ∀ j (hj : j < 8), j < f.kl → evenDword y'[j] = evenDword y[j] := by
  match src with
  | .rm (.reg x n) =>
    cases hy
    refine ⟨_, rfl, fun j hj hk => ?_⟩
    rw [lowLanes_getElem, lowLanes_getElem, if_pos hk, if_pos hk, ← evenOf_eq _ _ _ hj, ← evenOf_eq _ _ _ hj]
    exact heven _ j hj
  | .rm (.mem a) => exact ⟨y, hy, fun _ _ _ => rfl⟩
  | .bcst a => exact ⟨y, hy, fun _ _ _ => rfl⟩

/-- Settles O19: the sources agree in their even doublewords, and the elements are products of these. -/
theorem oddDoublewordsHaveNoInfluence : Obligations.OddDoublewordsHaveNoInfluence := by
  intro s s' t i hi hs' heven h
  generalize s'.v = v at hs'
  subst hs'
  obtain ⟨hr, hn, y, hy, rfl⟩ := exec_next h
  obtain ⟨y', hy', hyy⟩ := source2_of_even_eq heven hy
  have hn' : NextFits i.length { s with v := v } := hn
  refine ⟨_, exec_of_value hr hn' hy',
    BitVec.eq_of_toNat_eq ((ip_completed hn' ..).trans (ip_completed hn ..).symm), fun j hk => ?_⟩
  have h8 : j < 8 := hk.trans_le (kl_le_eight _)
  rw [laneOf_completed_result hi _ _ _ h8 hk, laneOf_completed_result hi _ _ _ h8 hk, heven _ j h8, hyy j h8 hk]

/-! ### Runs (R76, R133) -/

/-- On every machine a run of `n + 1` steps is a step and a run of `n`. -/
theorem run_succ_eq_next_iff (M : Host.Core) {n : Nat} {s t : M.State} :
    M.run (n + 1) s = .next t ↔ ∃ u, M.step s = .next u ∧ M.run n u = .next t := by
  rw [Host.Core.run]
  cases M.step s <;> simp

theorem runsTo_succ_iff {n : Nat} {s t : State} : RunsTo (n + 1) s t ↔ ∃ u, step s = .next u ∧ RunsTo n u t :=
  run_succ_eq_next_iff core

/-- A step changes nothing but vector registers and the instruction pointer, which rises by 5 to 15. -/
theorem step_straight {s t : State} (h : step s = .next t) :
    (∃ v p, t = { s with v := v, pc := p }) ∧
      (ip s).toNat + 5 ≤ (ip t).toNat ∧ (ip t).toNat ≤ (ip s).toNat + 15 := by
  obtain ⟨i, rest, hd, he⟩ := step_next h
  have hlo : 5 ≤ i.length := five_le_length (decode_sound hd).2
  have hhi : i.length ≤ 15 := length_le_of_decode_window hd
  obtain ⟨-, hn, y, -, rfl⟩ := exec_next he
  have hip := ip_completed hn i.dest (resultOf i s y)
  exact ⟨⟨_, _, rfl⟩, by omega, by omega⟩

/-- A run changes nothing but vector registers and the instruction pointer, which rises by 5 to 15 for each instruction. -/
theorem run_straight {n : Nat} {s t : State} (h : RunsTo n s t) :
    (∃ v p, t = { s with v := v, pc := p }) ∧
      (ip s).toNat + 5 * n ≤ (ip t).toNat ∧ (ip t).toNat ≤ (ip s).toNat + 15 * n := by
  induction n generalizing s with
  | zero =>
    cases h
    exact ⟨⟨_, _, rfl⟩, le_rfl, le_rfl⟩
  | succ n ih =>
    obtain ⟨u, hstep, hrun⟩ := runsTo_succ_iff.1 h
    obtain ⟨⟨v, p, rfl⟩, hlo, hhi⟩ := step_straight hstep
    obtain ⟨⟨v', p', rfl⟩, hlo', hhi'⟩ := ih hrun
    exact ⟨⟨v', p', rfl⟩, by omega, by omega⟩

/-- Settles O59: the fields it names are those that a run does not change. -/
theorem runIsAStraightLine : Obligations.RunIsAStraightLine := by
  intro n s t h
  obtain ⟨⟨v, p, rfl⟩, hlo, hhi⟩ := run_straight h
  exact ⟨hlo, hhi, rfl, rfl, rfl, rfl, rfl, rfl, rfl, rfl, rfl, rfl, rfl, rfl, rfl, rfl, rfl⟩

end Sys2Proof.Machine
end

section
/-! PROOFS. What the VEX forms write (R80, R81), F-SSE and F-VEX128 on the same operands (R83), and the vvvv and W fields of
VEX (R82). -/

namespace Sys2Proof.Machine

/-! ### Bits above the result, and the configuration (R4, R10) -/

/-- A register written with lanes that are zero from `kl` on has no bit from `64 * kl` on. -/
theorem bitOf_completed_zero_above (s : State) (d : VecNum) {x : Vec} (p : Qword) {kl : Nat}
    (hx : ∀ j (hj : j < 8), kl ≤ j → x[j] = 0#64) {i : Nat} (hi : 64 * kl ≤ i) :
    bitOf (completed s d x p) d i = false := by
  refine vecBits_zero_above _ kl (fun j hj hk => ?_) i hi
  rw [readV_completed, lowLanes_getElem, hx j hj hk, ite_self]

/-- On an admissible configuration `MAX_VL` holds every element of a form that is offered (R4). -/
theorem kl_le_lanes_of_admissible {p : Processor} {f : Form} (h : p.admissible = true)
    (hf : featurePresent f p.feat = true) : f.kl ≤ p.maxVL.lanes := by
  simp only [Processor.admissible, Bool.and_eq_true, Bool.or_eq_true, Bool.not_eq_true', decide_eq_true_eq] at h
  obtain ⟨havx2, havx512⟩ := h
  cases f with
  | sse | vex128 | evex128 => exact two_le_lanes _
  | vex256 => exact havx2.resolve_left (ne_false_of_eq_true hf)
  | evex256 =>
    have hf512 : p.feat.avx512f = true := (Bool.and_eq_true_iff.1 hf).2
    exact (by decide : Form.evex256.kl ≤ 8).trans (havx512.resolve_left (ne_false_of_eq_true hf512))
  | evex512 => exact havx512.resolve_left (ne_false_of_eq_true hf)

/-! ### The VEX forms (R80, R81) -/

/-- A VEX form writes `PackedMul` of its two sources, and nothing of the old destination. -/
theorem resultOf_vex {i : Instr} (hi : i.form = .vex128 ∨ i.form = .vex256) (s : State) (y : Vec) :
    resultOf i s y = packedMul i.form.kl (readV s (firstSourceOf i)) y := by
  cases i with
  | vpmuldqVex128 | vpmuldqVex256 => rfl
  | pmuldq | vpmuldqEvex128 | vpmuldqEvex256 | vpmuldqEvex512 => simp [Instr.form] at hi

/-- A VEX form whose elements `MAX_VL` holds completes: the exact products, zero above them, and the frame of R24. -/
theorem exec_vex_of_gives {i : Instr} {s : State} {g : Nat → Dword} (hi : i.form = .vex128 ∨ i.form = .vex256)
    (hkl : i.form.kl ≤ s.cpu.maxVL.lanes) (hr : Ready i.form s) (hn : NextFits i.length s)
    (hg : SourceGives s i.form i.prefixes i.length (sourceOf i) g) :
    ∃ t, exec i s = .next t ∧ FrameExcept i.dest i.length s t ∧
      (∀ j, j < i.form.kl → (laneOf t i.dest j).toInt = (evenOf s (firstSourceOf i) j).toInt * (g j).toInt) ∧
      (∀ b, i.form.vl ≤ b → bitOf t i.dest b = false) := by
  obtain ⟨y, hy, hyg⟩ := source2_of_gives hg
  refine ⟨_, exec_of_value hr hn hy, frameExcept_completed hn _ _, fun j hj => ?_, fun b hb => ?_⟩
  · have h8 : j < 8 := hj.trans_le (kl_le_eight _)
    have hevex : isEvex i.form = false := by rcases hi with h | h <;> rw [h] <;> rfl
    rw [laneOf_completed_result hevex s y _ h8 hj, if_pos (hj.trans_le hkl), laneMul_toInt, hyg j h8 hj]
  · refine bitOf_completed_zero_above s _ _ (fun j hj hk => ?_) hb
    rw [resultOf_vex hi, packedMul_getElem, if_neg hk.not_gt]

/-- Settles O5: two elements fit every `MAX_VL`. -/
theorem vpmuldqVex128CompletesWithProducts : Obligations.VpmuldqVex128CompletesWithProducts := by
  intro s pre w d a src g hr hn hg
  exact exec_vex_of_gives (i := .vpmuldqVex128 pre w d a src) (.inl rfl) (two_le_lanes _) hr hn hg

/-- Settles O6: `MAX_VL` of an admissible configuration that offers the form holds four elements. -/
theorem vpmuldqVex256CompletesWithProducts : Obligations.VpmuldqVex256CompletesWithProducts := by
  intro s pre w d a src g hadm hr hn hg
  have hkl : Form.vex256.kl ≤ s.cpu.maxVL.lanes := kl_le_lanes_of_admissible hadm hr.1
  exact exec_vex_of_gives (i := .vpmuldqVex256 pre w d a src) (.inr rfl) hkl hr hn hg

/-! ### F-SSE and F-VEX128 on the same operands (R83) -/

/-- Bit `i` of a register is bit `i mod 64` of its element `i / 64`. -/
theorem bitOf_eq_laneOf_getLsbD (s : State) (n : VecNum) {i : Nat} (hi : i < 512) :
    bitOf s n i = (laneOf s n (i / 64)).getLsbD (i % 64) := by
  rw [bitOf, vecBits_getLsbD _ i hi, laneOf_eq s n (i / 64) (by omega)]

/-- Settles O12: both forms compute the same two products; only F-SSE has an alignment rule. -/
theorem pmuldqAgreesWithVex128 : Obligations.PmuldqAgreesWithVex128 := by
  intro s pre pre' rex w d src g hrSse hrVex hnSse hnVex hgVex
  obtain ⟨t', ht', -, hprod', hzero⟩ := vpmuldqVex128CompletesWithProducts s pre' w d d src g hrVex hnVex hgVex
  constructor
  · intro hgSse
    obtain ⟨t, ht, -, hprod, hkeep⟩ := pmuldqCompletesWithProducts s pre rex d src g hrSse hnSse hgSse
    refine ⟨t, t', ht, ht', fun i hi => ?_, hkeep, hzero⟩
    have hj : i / 64 < 2 := by omega
    have hlane : laneOf t (d.setWidth 5) (i / 64) = laneOf t' (d.setWidth 5) (i / 64) :=
      BitVec.eq_of_toInt_eq ((hprod _ hj).trans (hprod' _ hj).symm)
    rw [bitOf_eq_laneOf_getLsbD _ _ (by omega), bitOf_eq_laneOf_getLsbD _ _ (by omega), hlane]
  · rintro a la rfl hl hmis
    exact ⟨misalignedPmuldqRaisesGp s pre rex d a la hrSse hl hmis, t', ht'⟩

end Sys2Proof.Machine

namespace Sys2Proof

/-! ### The vvvv and W fields (R82) -/

/-- In 64-bit mode the operand alone decides what a VEX prefix of these forms and its opcode go on to: every vvvv names the
first source and L the form. -/
theorem decode_vex_mode64 (w l : Bool) (v : BitVec 4) {p0 : Byte} (t : List Byte) (hmap : p0.extractLsb' 0 5 = 2#5) :
    decode .mode64 (0xC4#8 :: p0 :: (VexP1.mk w v l 1#2).toByte :: 0x28#8 :: t) =
      (decodeRM (addrSizeOf .mode64 []) (VexP0.ofByte p0).x (VexP0.ofByte p0).b t).elim .more fun (reg, src, rest) =>
        .ok (vexInstr l [] w (ext4 (VexP0.ofByte p0).r reg) v src) rest := by
  have hmap' : (VexP0.ofByte p0).map = 2#5 := hmap
  have hbody : decode .mode64 (0xC4#8 :: p0 :: (VexP1.mk w v l 1#2).toByte :: 0x28#8 :: t) =
      decodeVex .mode64 [] false (p0 :: (VexP1.mk w v l 1#2).toByte :: 0x28#8 :: t) :=
    decode_of_prefixes .mode64 [] _ (by decide)
  rw [hbody]
  simp only [decodeVex, vexP1_ofByte_toByte, hmap']
  cases decodeRM (addrSizeOf .mode64 []) (VexP0.ofByte p0).x (VexP0.ofByte p0).b t with
  | none => rfl
  | some operand => cases l <;> rfl

/-- Settles O42: the operand is complete, so the bytes decode; the meaning and the length of the VEX forms do not look at W. -/
theorem vexVvvvNamesFirstSourceAndWIsIgnored : Obligations.VexVvvvNamesFirstSourceAndWIsIgnored := by
  refine ⟨fun w l v p0 t hmap hmore => ?_, fun w w' pre d a src s =>
    ⟨Machine.exec_congr rfl rfl rfl rfl rfl, Machine.exec_congr rfl rfl rfl rfl rfl, rfl, rfl⟩⟩
  have hdec := decode_vex_mode64 w l v t hmap
  cases hrm : decodeRM (addrSizeOf .mode64 []) (VexP0.ofByte p0).x (VexP0.ofByte p0).b t with
  | none =>
    rw [hrm] at hdec
    exact absurd hdec hmore
  | some operand =>
    obtain ⟨reg, src, rest⟩ := operand
    rw [hrm] at hdec
    exact ⟨_, src, rest, hdec⟩

end Sys2Proof
end

section
/-! PROOFS. What the EVEX forms write under a writemask (R90, R92, R94 to R100): the elements, the bits above VL, the old
destination, the mask bits from KL on, the full mask, and the broadcast operand (R93). -/

namespace Sys2Proof.Machine

/-! ### An element under the writemask (R92, R98, R99) -/

/-- The statement's wording of an element, by whether it is computed. -/
theorem elementIs_iff (s : State) (mk : Masking) (d : VecNum) (j : Nat) (p : Int) (q : Qword) :
    ElementIs s mk d j p q ↔ if elementActive s mk j then q.toInt = p else q = maskedOff mk (laneOf s d j) := by
  cases mk with
  | none => exact (if_pos rfl).symm.to_iff
  | merge k => rfl
  | zero k => rfl

/-- The result depends on which elements are computed, on the even doublewords of the sources in these, and on what the
others become. -/
theorem evexResult_congr {s s' : State} {kl : Nat} {mk mk' : Masking} {old old' x x' y y' : Vec}
    (hact : ∀ j, j < kl → elementActive s' mk' j = elementActive s mk j)
    (hsrc : ∀ j (hj : j < 8), j < kl → evenDword x'[j] = evenDword x[j] ∧ evenDword y'[j] = evenDword y[j])
    (hold : ∀ j (hj : j < 8), j < kl → elementActive s mk j = false → maskedOff mk' old'[j] = maskedOff mk old[j]) :
    evexResult s' kl mk' old' x' y' = evexResult s kl mk old x y := by
  ext1 j hj
  rw [evexResult_getElem, evexResult_getElem]
  by_cases hk : j < kl
  · obtain ⟨hx, hy⟩ := hsrc j hj hk
    rw [if_pos hk, if_pos hk, hact j hk, hx, hy]
    cases ha : elementActive s mk j with
    | true => rfl
    | false => exact hold j hj hk ha
  · rw [if_neg hk, if_neg hk]

/-- Without a writemask the result is `PackedMul` (R100). -/
theorem evexResult_none (s : State) (kl : Nat) (old x y : Vec) : evexResult s kl .none old x y = packedMul kl x y := by
  ext1 j hj
  rw [evexResult_getElem, packedMul_getElem]
  rfl

/-! ### The destination after completion -/

section
variable {s : State} {d : VecNum} {kl : Nat} {mk : Masking} {x y : Vec} {p : Qword}

/-- A computed element is the product of the even doublewords, where `MAX_VL` holds it. -/
theorem laneOf_evex_active {j : Nat} (hj : j < 8) (hk : j < kl) (hl : j < s.cpu.maxVL.lanes)
    (ha : elementActive s mk j = true) :
    laneOf (completed s d (evexResult s kl mk (readV s d) x y) p) d j = laneMul (evenDword x[j]) (evenDword y[j]) := by
  rw [laneOf_completed _ _ _ _ hj, if_pos hl, evexResult_getElem, if_pos hk, if_pos ha]

/-- An element that is not computed becomes what the masking makes of the old one, which is zero above `MAX_VL`. -/
theorem laneOf_evex_masked {j : Nat} (hj : j < 8) (hk : j < kl) (ha : elementActive s mk j = false) :
    laneOf (completed s d (evexResult s kl mk (readV s d) x y) p) d j = maskedOff mk (laneOf s d j) := by
  rw [laneOf_completed _ _ _ _ hj, evexResult_getElem, if_pos hk, ha, laneOf_eq _ _ _ hj]
  by_cases hl : j < s.cpu.maxVL.lanes
  · rw [if_pos hl]
    rfl
  · have hold : (readV s d)[j] = 0#64 := by rw [readV, lowLanes_getElem, if_neg hl]
    rw [if_neg hl, hold]
    cases mk <;> rfl

/-- The bits above VL are zero, whatever the mask (R94). -/
theorem bitOf_evex_above {b : Nat} (hb : 64 * kl ≤ b) (old : Vec) :
    bitOf (completed s d (evexResult s kl mk old x y) p) d b = false := by
  refine bitOf_completed_zero_above s d p (fun j hj hk => ?_) hb
  rw [evexResult_getElem, if_neg hk.not_gt]

end

/-! ### The three EVEX instructions, told apart by their form only -/

section
variable {s t : State} {i : Instr} {pre : List LegacyPrefix} {d a : VecNum} {mk : Masking} {src : EvexSrc}
  (hi : i = .vpmuldqEvex128 pre d a mk src ∨ i = .vpmuldqEvex256 pre d a mk src ∨ i = .vpmuldqEvex512 pre d a mk src)
include hi

/-- What an EVEX instruction that answers a next state did. -/
theorem exec_evex_next (h : exec i s = .next t) :
    Ready i.form s ∧ NextFits i.length s ∧ ∃ y, source2 s i.form pre i.length src = .value y ∧
      t = completed s d (evexResult s i.form.kl mk (readV s d) (readV s a) y)
        (BitVec.ofNat 64 ((ip s).toNat + i.length)) := by
  rcases hi with rfl | rfl | rfl <;> exact exec_next h

/-- An available EVEX instruction whose source has a value and whose next address fits completes. -/
theorem exec_evex_of_value {x y : Vec} (hr : Ready i.form s) (hn : NextFits i.length s)
    (hy : source2 s i.form pre i.length src = .value y)
    (hx : evexResult s i.form.kl mk (readV s d) (readV s a) y = x) :
    exec i s = .next (completed s d x (BitVec.ofNat 64 ((ip s).toNat + i.length))) := by
  subst hx
  rcases hi with rfl | rfl | rfl <;> exact exec_of_value hr hn hy

/-- In an EVEX form the X bit counts in a register number (R50). -/
theorem regNumber_evex (x : Bool) (n : GprNum) : regNumber i.form x n = ext5 x n := by
  rcases hi with rfl | rfl | rfl <;> rfl

/-- An EVEX form whose elements `MAX_VL` holds completes: each element as the writemask says, zero above VL, and the frame
of R24. -/
theorem exec_evex_of_gives {g : Nat → Dword} (hkl : i.form.kl ≤ s.cpu.maxVL.lanes) (hr : Ready i.form s)
    (hn : NextFits i.length s) (hg : SourceGives s i.form pre i.length src g) :
    ∃ t, exec i s = .next t ∧ FrameExcept d i.length s t ∧
      (∀ j, j < i.form.kl → ElementIs s mk d j ((evenOf s a j).toInt * (g j).toInt) (laneOf t d j)) ∧
      (∀ b, i.form.vl ≤ b → bitOf t d b = false) := by
  obtain ⟨y, hy, hyg⟩ := source2_of_gives hg
  refine ⟨_, exec_evex_of_value hi hr hn hy rfl, frameExcept_completed hn _ _, fun j hj => ?_,
    fun b hb => bitOf_evex_above hb _⟩
  have h8 : j < 8 := hj.trans_le (kl_le_eight _)
  rw [elementIs_iff]
  cases ha : elementActive s mk j with
  | true =>
    rw [if_pos rfl, laneOf_evex_active h8 hj (hj.trans_le hkl) ha, laneMul_toInt, hyg j h8 hj,
      evenOf_eq _ _ _ h8]
  | false => exact laneOf_evex_masked h8 hj ha

end

/-- Settles O7: two elements fit every `MAX_VL`. -/
theorem vpmuldqEvex128CompletesUnderMask : Obligations.VpmuldqEvex128CompletesUnderMask := by
  intro s pre d a mk src g hr hn hg
  exact exec_evex_of_gives (.inl rfl) (two_le_lanes _) hr hn hg

/-- Settles O8: `MAX_VL` of an admissible configuration that offers the form holds four elements. -/
theorem vpmuldqEvex256CompletesUnderMask : Obligations.VpmuldqEvex256CompletesUnderMask := by
  intro s pre d a mk src g hadm hr hn hg
  exact exec_evex_of_gives (.inr (.inl rfl)) (kl_le_lanes_of_admissible (f := .evex256) hadm hr.1) hr hn hg

/-- Settles O9: `MAX_VL` of an admissible configuration that offers the form holds eight elements. -/
theorem vpmuldqEvex512CompletesUnderMask : Obligations.VpmuldqEvex512CompletesUnderMask := by
  intro s pre d a mk src g hadm hr hn hg
  obtain ⟨t, ht, hframe, helem, -⟩ :=
    exec_evex_of_gives (.inr (.inr rfl)) (kl_le_lanes_of_admissible (f := .evex512) hadm hr.1) hr hn hg
  exact ⟨t, ht, hframe, helem⟩

/-! ### Masked-off elements and the bits above VL (R94, R99) -/

/-- Settles O13: the lanes from KL on are zero; with merging an element that is not computed is the old one. -/
theorem evexZeroesBitsAboveVl : Obligations.EvexZeroesBitsAboveVl := by
  intro s t pre d a mk src i hi h
  obtain ⟨-, -, y, -, rfl⟩ := exec_evex_next hi h
  refine ⟨fun b hb => bitOf_evex_above hb _, ?_⟩
  rintro k rfl hoff b hb
  have hk : b / 64 < i.form.kl := Nat.div_lt_of_lt_mul hb
  have h8 : b / 64 < 8 := hk.trans_le (kl_le_eight _)
  rw [bitOf_eq_laneOf_getLsbD _ _ (by omega), bitOf_eq_laneOf_getLsbD _ _ (by omega),
    laneOf_evex_masked (mk := .merge k) h8 hk (hoff _ hk), maskedOff]

/-- Putting a value in one register leaves what is read from every other. -/
theorem readV_set_v_other (s : State) {d n : VecNum} (x : Vec) (h : n ≠ d) :
    readV { s with v := s.v.set d.toNat x } n = readV s n := by
  have hne : d.toNat ≠ n.toNat := fun e => h (BitVec.eq_of_toNat_eq e.symm)
  rw [readV, readV, Vector.getElem_set_ne _ _ hne]

/-- The second source does not look at a register that it does not name. -/
theorem source2_set_v {s : State} {f : Form} {pre : List LegacyPrefix} {len : Nat} {src : EvexSrc} {d : VecNum}
    (x : Vec) (h : ∀ e n, src = .rm (.reg e n) → regNumber f e n ≠ d) :
    source2 { s with v := s.v.set d.toNat x } f pre len src = source2 s f pre len src := by
  match src with
  | .rm (.reg e n) => simp only [source2, readV_set_v_other s x (h e n rfl)]
  | .rm (.mem ad) => rfl
  | .bcst ad => rfl

/-- Settles O14: with zeroing an element that is not computed is zero, and nothing of the old destination is left. -/
theorem zeroingMaskIgnoresOldDestination : Obligations.ZeroingMaskIgnoresOldDestination := by
  intro s t pre d a k src i hi h
  obtain ⟨hr, hn, y, hy, rfl⟩ := exec_evex_next hi h
  have hzero (p : Qword) (j : Nat) (hk : j < i.form.kl) (hoff : (readK s k).getLsbD j = false) :
      laneOf (completed s d (evexResult s i.form.kl (.zero k) (readV s d) (readV s a) y) p) d j = 0#64 :=
    laneOf_evex_masked (mk := .zero k) (hk.trans_le (kl_le_eight _)) hk hoff
  refine ⟨hzero _, fun hoff b => ?_, fun x hda hsrc => ?_⟩
  · by_cases hb : b < i.form.vl
    · have hk : b / 64 < i.form.kl := Nat.div_lt_of_lt_mul hb
      have hle := kl_le_eight i.form
      rw [bitOf_eq_laneOf_getLsbD _ _ (by omega), hzero _ _ hk (hoff _ hk), BitVec.getLsbD_zero]
    · exact bitOf_evex_above (Nat.le_of_not_lt hb) _
  · have hy' : source2 { s with v := s.v.set d.toNat x } i.form pre i.length src = .value y :=
      (source2_set_v x fun e n he => regNumber_evex hi e n ▸ hsrc e n he).trans hy
    refine ⟨_, exec_evex_of_value hi hr hn hy' rfl, ?_⟩
    rw [readV_completed, readV_completed, readV_set_v_other s x hda.symm]
    exact congrArg _ (evexResult_congr (fun _ _ => rfl) (fun _ _ _ => ⟨rfl, rfl⟩) fun _ _ _ _ => rfl)

/-! ### The mask register (R14, R92, R100) -/

/-- The second source does not look at the mask registers. -/
theorem source2_with_k (s : State) (k : Vector Qword 8) (f : Form) (pre : List LegacyPrefix) (len : Nat) (src : EvexSrc) :
    source2 { s with k := k } f pre len src = source2 s f pre len src := by
  match src with
  | .rm (.reg e n) => rfl
  | .rm (.mem ad) => rfl
  | .bcst ad => rfl

/-- Under a mask register the mask bit decides whether an element is computed. -/
theorem elementActive_of_mask {mk : Masking} {k : BitVec 3} (hmk : mk = .merge k ∨ mk = .zero k) (s : State) (j : Nat) :
    elementActive s mk j = (readK s k).getLsbD j := by
  rcases hmk with rfl | rfl <;> rfl

/-- Settles O15: only the first KL elements ask for their mask bit, and no instruction writes a mask register. -/
theorem maskBitsAboveKlAreIgnored : Obligations.MaskBitsAboveKlAreIgnored := by
  intro s t pre d a mk k src i q hi hmk hq h
  obtain ⟨hr, hn, y, hy, rfl⟩ := exec_evex_next hi h
  refine ⟨rfl, ?_⟩
  have hread : readK { s with k := s.k.set k.toNat q } k = q := Vector.getElem_set_self _
  have hres : evexResult { s with k := s.k.set k.toNat q } i.form.kl mk (readV s d) (readV s a) y =
      evexResult s i.form.kl mk (readV s d) (readV s a) y := by
    refine evexResult_congr (fun j hj => ?_) (fun _ _ _ => ⟨rfl, rfl⟩) fun _ _ _ _ => rfl
    rw [elementActive_of_mask hmk, elementActive_of_mask hmk, hread, hq j hj]
  exact exec_evex_of_value (s := { s with k := s.k.set k.toNat q }) hi hr hn ((source2_with_k ..).trans hy) hres

/-- A mask whose first `kl` bits are set computes every element, as no writemask does. -/
theorem evexResult_fullMask {s : State} {mk : Masking} {k : BitVec 3} (hmk : mk = .merge k ∨ mk = .zero k) {kl : Nat}
    (hfull : ∀ j, j < kl → (readK s k).getLsbD j = true) (old x y : Vec) :
    evexResult s kl mk old x y = evexResult s kl .none old x y :=
  evexResult_congr (fun j hj => (elementActive_of_mask hmk s j).trans (hfull j hj)) (fun _ _ _ => ⟨rfl, rfl⟩)
    fun _ _ _ hoff => nomatch hoff

/-- Settles O16: the instructions differ in their masking only, and write the same result. -/
theorem fullMaskEqualsNoMask : Obligations.FullMaskEqualsNoMask := by
  intro s pre d a k src mk hmk
  refine ⟨fun hfull => ?_, fun hfull => ?_, fun hfull => ?_⟩ <;>
    exact exec_congr rfl rfl rfl (funext fun y => evexResult_fullMask hmk hfull _ _ y) rfl

/-! ### EVEX without a writemask and VEX (R80, R81, R100) -/

/-- Two available instructions that write `PackedMul` of the same first source and of second sources with the same
doublewords to the same register both complete, with the same vector registers. -/
theorem exec_same_v_of_packedMul {i i' : Instr} {s : State} {x : Vec} {g : Nat → Dword} (hkl : i'.form.kl = i.form.kl)
    (hdest : i'.dest = i.dest) (hres : ∀ y, resultOf i s y = packedMul i.form.kl x y)
    (hres' : ∀ y, resultOf i' s y = packedMul i'.form.kl x y)
    (hr : Ready i.form s) (hr' : Ready i'.form s) (hn : NextFits i.length s) (hn' : NextFits i'.length s)
    (hg : SourceGives s i.form i.prefixes i.length (sourceOf i) g)
    (hg' : SourceGives s i'.form i'.prefixes i'.length (sourceOf i') g) :
    ∃ t t', exec i s = .next t ∧ exec i' s = .next t' ∧ t.v = t'.v := by
  obtain ⟨y, hy, hyg⟩ := source2_of_gives hg
  obtain ⟨y', hy', hyg'⟩ := source2_of_gives hg'
  refine ⟨_, _, exec_of_value hr hn hy, exec_of_value hr' hn' hy', ?_⟩
  have hmul : packedMul i.form.kl x y' = packedMul i.form.kl x y :=
    packedMul_congr fun j hj hk => ⟨rfl, (hyg' j hj (hkl ▸ hk)).trans (hyg j hj hk).symm⟩
  rw [completed_v, completed_v, hres, hres', hdest, hkl, hmul]

/-- Settles O17: both forms write `PackedMul` of the same doublewords. -/
theorem unmaskedEvexEqualsVex : Obligations.UnmaskedEvexEqualsVex := by
  rintro s pre pre' w d a src src' g i i' (⟨rfl, rfl⟩ | ⟨rfl, rfl⟩) hr hr' hn hn' hg hg'
  · exact exec_same_v_of_packedMul rfl rfl (resultOf_vex (.inl rfl) s) (evexResult_none s _ _ _) hr hr' hn hn' hg hg'
  · exact exec_same_v_of_packedMul rfl rfl (resultOf_vex (.inr rfl) s) (evexResult_none s _ _ _) hr hr' hn hn' hg hg'

/-! ### Broadcast (R30, R93) -/

/-- A broadcast operand with a linear address is the quadword there in every lane, once the checks have passed. -/
theorem source2_bcst_of_linear {s : State} {f : Form} {pre : List LegacyPrefix} {len : Nat} {ad : Addr} {la : Qword}
    (hl : linearAddress s pre 8 len ad = some la) :
    source2 s f pre len (.bcst ad) = (checkRead s (alignedForm f) (usesStack pre ad) la.toNat 8).map
      fun _ => broadcast (readQword s.mem la.toNat) f.kl := by
  simp only [source2, operandAddress_of_linear hl, Read.map_map]
  rfl

/-- A read that has a value was passed through from one that has. -/
theorem Read.map_eq_value {α β : Type} {r : Read α} {g : α → β} {y : β} (h : r.map g = .value y) :
    ∃ x, r = .value x ∧ g x = y := by
  cases r with
  | value x => exact ⟨x, rfl, Read.value.inj h⟩
  | raise e => exact nomatch h
  | refuse e => exact nomatch h

/-- The even doubleword of a lane of a broadcast quadword is the doubleword at its address. -/
theorem evenDword_broadcast (m : Memory) (a : Nat) {kl j : Nat} (hj : j < 8) (hk : j < kl) :
    evenDword (broadcast (readQword m a) kl)[j] = dwordAt m a := by
  rw [broadcast_getElem, if_pos hk, evenDword_readQword]

/-- A doubleword is its four bytes. -/
theorem dwordAt_congr {m m' : Memory} {a : Nat} (h : ∀ o, o < 4 → readByte m' (a + o) = readByte m (a + o)) :
    dwordAt m' a = dwordAt m a := by
  have h0 : readByte m' a = readByte m a := h 0 (by decide)
  rw [dwordAt, dwordAt, h 3 (by decide), h 2 (by decide), h 1 (by decide), h0]

/-- With broadcast the result depends on no byte of memory but the four of the low doubleword (R93). -/
theorem evexResult_broadcast_with_mem (s : State) {m : Memory} {a : Nat} (kl : Nat) (mk : Masking) (old x : Vec)
    (h : ∀ o, o < 4 → readByte m (a + o) = readByte s.mem (a + o)) :
    evexResult { s with mem := m } kl mk old x (broadcast (readQword m a) kl) =
      evexResult s kl mk old x (broadcast (readQword s.mem a) kl) := by
  refine evexResult_congr (fun _ _ => by cases mk <;> rfl) (fun j hj hk => ⟨rfl, ?_⟩) fun _ _ _ _ => rfl
  rw [evenDword_broadcast _ _ hj hk, evenDword_broadcast _ _ hj hk, dwordAt_congr h]

/-- Settles O18: every lane of the second source has the doubleword at the operand's address as its even one; the checks look
at all eight bytes, and neither they nor the address look at the bytes of memory. -/
theorem broadcastUsesLowDoublewordOnly : Obligations.BroadcastUsesLowDoublewordOnly := by
  intro s t pre d a mk ad i la hi hl hadm
  refine ⟨fun h => ?_, fun hr hleg ⟨o, _, ho, hun⟩ => ?_⟩
  · obtain ⟨hr, hn, y, hy, rfl⟩ := exec_evex_next hi h
    rw [source2_bcst_of_linear hl] at hy
    obtain ⟨u, hc, rfl⟩ := Read.map_eq_value hy
    refine ⟨fun j hk ha => ?_, fun m' hm' => ?_⟩
    · have h8 : j < 8 := hk.trans_le (kl_le_eight _)
      have hlane : j < s.cpu.maxVL.lanes := hk.trans_le (kl_le_lanes_of_admissible hadm hr.1)
      rw [laneOf_evex_active h8 hk hlane ha, evenDword_broadcast _ _ h8 hk, evenOf_eq _ _ _ h8]
    · have hl' : linearAddress { s with mem := m' } pre 8 i.length ad = some la := hl
      have hc' : checkRead { s with mem := m' } (alignedForm i.form) (usesStack pre ad) la.toNat 8 = .value () := hc
      have hy' : source2 { s with mem := m' } i.form pre i.length (.bcst ad) =
          .value (broadcast (readQword m' la.toNat) i.form.kl) := by
        rw [source2_bcst_of_linear hl', hc', Read.map]
      exact exec_evex_of_value (s := { s with mem := m' }) hi hr hn hy'
        (evexResult_broadcast_with_mem s _ _ _ _ hm')
  · have hop : HasOperandAt s i la 8 := by
      rcases hi with rfl | rfl | rfl <;> exact ⟨ad, 8, rfl, hl, fun hf => nomatch hf⟩
    exact unreadableOperandByteRaisesPf s i 8 la hr hop hleg ⟨o, ho, hun⟩

end Sys2Proof.Machine
end

section
/-! PROOFS. Which exceptions an instruction raises and where they come from (R110 to R113, R117), the address they carry (R115),
and that a form without a memory operand raises none of its own and does not look at the privilege level (R116, R123). -/

namespace Sys2Proof.Machine

/-! ### The exceptions of an instruction (R115, R117) -/

/-- Different exceptions are different faults. -/
theorem raiseException_inj {e e' : ExcKind} {s : State} : raiseException e s = raiseException e' s ↔ e = e' := by
  cases e <;> cases e' <;> simp [raiseException]

/-- The fault of an exception carries the instruction pointer (R115, R118). -/
theorem ip_of_raiseException {e : ExcKind} {s : State} {f : Fault} (h : raiseException e s = .fault f) : f.ip = ip s := by
  cases e <;> cases h <;> rfl

/-- Moving to the next instruction completes or is refused. -/
theorem advance_ne_fault (len : Nat) (s : State) (f : Fault) : advance len s ≠ .fault f := by
  by_cases hn : NextFits len s
  · rw [advance_eq_next len s hn]; exact nofun
  · rw [advance_eq_refused len s hn]; exact nofun

/-- An instruction whose availability check raises an exception raises it. -/
theorem exec_of_checkAvailable {i : Instr} {s : State} {e : ExcKind} (h : checkAvailable i.form s = some e) :
    exec i s = raiseException e s := by
  rw [exec_shape]
  simp only [runForm, h]

/-- An instruction that faults raised an exception of its availability check or, available, one of its second source. -/
theorem exec_fault {i : Instr} {s : State} {f : Fault} (h : exec i s = .fault f) :
    ∃ e, raiseException e s = .fault f ∧
      (checkAvailable i.form s = some e ∨
        Ready i.form s ∧ source2 s i.form i.prefixes i.length (sourceOf i) = .raise e) := by
  rw [exec_shape] at h
  rcases runForm_cases i.form i.length (source2 s i.form i.prefixes i.length (sourceOf i))
      (fun y => writeV s i.dest (resultOf i s y)) s with
    ⟨e, hc, he⟩ | ⟨-, -, he⟩ | ⟨hc, hm, ⟨e, hsrc, he⟩ | ⟨r, -, he⟩ | ⟨y, -, he⟩⟩
  · exact ⟨e, he.symm.trans h, .inl hc⟩
  · exact nomatch he.symm.trans h
  · exact ⟨e, he.symm.trans h, .inr ⟨(ready_iff _ _).2 ⟨hc, hm⟩, hsrc⟩⟩
  · exact nomatch he.symm.trans h
  · exact (advance_ne_fault _ _ _ (he.symm.trans h)).elim

/-- A step that faults raised an exception. -/
theorem step_fault {s : State} {f : Fault} (h : step s = .fault f) : ∃ e, raiseException e s = .fault f := by
  unfold step at h
  split at h
  next i _ =>
    obtain ⟨e, he, -⟩ := exec_fault h
    exact ⟨e, he⟩
  next e _ => exact ⟨e, h⟩
  next => exact nomatch h

/-- Settles O23: every fault is that of an exception, which carries the instruction pointer. -/
theorem faultVectorsAndAddress : Obligations.FaultVectorsAndAddress := by
  refine ⟨fun _ => ⟨rfl, rfl, rfl, rfl, rfl⟩, fun f => ?_, fun s f h => ?_⟩
  · cases f <;> exact ⟨by simp [Fault.vector], by simp [Fault.vector]⟩
  · obtain ⟨e, he⟩ := step_fault h
    exact ip_of_raiseException he

/-! ### #UD and #NM (R110 to R113) -/

/-- Reading the second source raises neither #UD nor #NM. -/
theorem source2_ne_raise {e : ExcKind} (he : e = .ud ∨ e = .nm) (s : State) (f : Form) (pre : List LegacyPrefix) (len : Nat)
    (src : EvexSrc) : source2 s f pre len src ≠ .raise e := by
  intro h
  rcases source2_cases s f pre len src with ⟨y, hy⟩ | hy | hy | hy | hy | hy <;>
    rcases he with rfl | rfl <;> exact nomatch h.symm.trans hy

/-- An instruction raises #UD or #NM exactly when its availability check does. -/
theorem exec_raises_iff_checkAvailable {i : Instr} {s : State} {e : ExcKind} (he : e = .ud ∨ e = .nm) :
    exec i s = raiseException e s ↔ checkAvailable i.form s = some e := by
  refine ⟨fun h => ?_, exec_of_checkAvailable⟩
  obtain ⟨f, hf⟩ : ∃ f, raiseException e s = .fault f := by cases e <;> exact ⟨_, rfl⟩
  obtain ⟨e', he', hcause⟩ := exec_fault (h.trans hf)
  obtain rfl : e' = e := raiseException_inj.1 (he'.trans hf.symm)
  rcases hcause with hc | ⟨-, hsrc⟩
  · exact hc
  · exact (source2_ne_raise he _ _ _ _ _ hsrc).elim

/-- The mode is the check of all forms but F-SSE (R110, R111). -/
theorem udOutsideProtected_iff (f : Form) : udOutsideProtected f = true ↔ f ≠ .sse := by
  simp [udOutsideProtected]

/-- The availability check raises #UD exactly when the form is not offered, not enabled, or not allowed in the mode. -/
theorem checkAvailable_eq_ud_iff (f : Form) (s : State) :
    checkAvailable f s = some .ud ↔
      featurePresent f s.cpu.feat = false ∨ osEnabled f s = false ∨ (s.mode.inSpec = false ∧ f ≠ .sse) := by
  rw [← udOutsideProtected_iff]
  unfold checkAvailable
  cases featurePresent f s.cpu.feat with
  | false => simp
  | true =>
    cases osEnabled f s with
    | false => simp
    | true => cases taskSwitched s <;> simp [and_comm]

/-- The availability check raises #NM exactly when it does not raise #UD and CR0.TS is 1. -/
theorem checkAvailable_eq_nm_iff (f : Form) (s : State) :
    checkAvailable f s = some .nm ↔ checkAvailable f s ≠ some .ud ∧ taskSwitched s = true := by
  unfold checkAvailable
  cases featurePresent f s.cpu.feat with
  | false => simp
  | true =>
    cases udOutsideProtected f && !s.mode.inSpec with
    | true => simp
    | false => cases osEnabled f s <;> simp

/-- Settles O20: only the availability check raises #UD. -/
theorem udExactlyWhenUnavailable : Obligations.UdExactlyWhenUnavailable := fun i s =>
  (exec_raises_iff_checkAvailable (.inl rfl)).trans (checkAvailable_eq_ud_iff i.form s)

/-- Settles O22: only the availability check raises #NM, after its #UD checks. -/
theorem nmExactlyWhenTaskSwitched : Obligations.NmExactlyWhenTaskSwitched := by
  refine ⟨fun i s => (exec_raises_iff_checkAvailable (.inr rfl)).trans ?_, fun _ => rfl⟩
  rw [checkAvailable_eq_nm_iff, Ne, checkAvailable_eq_ud_iff]
  simp only [not_or, not_and_or, Bool.not_eq_false, not_not, and_assoc]

/-! ### Forms without a memory operand (R116, R123) -/

/-- Without a memory operand the second source is a register, which has a value in every state. -/
theorem source2_of_no_memOperand {i : Instr} (hm : memOperand i = none) :
    ∃ r : VecNum, ∀ s : State,
      source2 s i.form i.prefixes i.length (sourceOf i) = .value (lowLanes i.form.kl (readV s r)) := by
  obtain ⟨x, n, hsrc⟩ := sourceOf_reg i hm
  exact ⟨regNumber i.form x n, fun s => by rw [hsrc, source2]⟩

/-- Without a memory operand an instruction raises the exceptions of its availability check only. -/
theorem exec_fault_of_no_memOperand {i : Instr} {s : State} {f : Fault} (hm : memOperand i = none)
    (h : exec i s = .fault f) : ∃ e, raiseException e s = .fault f ∧ checkAvailable i.form s = some e := by
  obtain ⟨r, hsrc⟩ := source2_of_no_memOperand hm
  obtain ⟨e, he, hc | ⟨-, hraise⟩⟩ := exec_fault h
  · exact ⟨e, he, hc⟩
  · exact nomatch (hsrc s).symm.trans hraise

/-- An available instruction whose source has a value and whose next address does not fit is refused. -/
theorem exec_of_value_of_not_fits {i : Instr} {s : State} {y : Vec} (hr : Ready i.form s) (hn : ¬ NextFits i.length s)
    (hy : source2 s i.form i.prefixes i.length (sourceOf i) = .value y) : exec i s = .refused .pcWrap := by
  obtain ⟨hc, hm⟩ := (ready_iff _ _).1 hr
  rw [exec_shape]
  simp only [runForm, hc, hm, hy, if_true]
  exact advance_eq_refused _ _ hn

/-- Settles O29: the availability checks pass and the second source has a value, so only the next address is left to ask. -/
theorem registerFormsNeverFault : Obligations.RegisterFormsNeverFault := by
  intro s i hr hm
  obtain ⟨r, hsrc⟩ := source2_of_no_memOperand hm
  refine ⟨fun f h => ?_, fun hn => ⟨_, exec_of_value hr hn (hsrc s)⟩, fun hn => exec_of_value_of_not_fits hr hn (hsrc s)⟩
  obtain ⟨hnone, -⟩ := (ready_iff _ _).1 hr
  obtain ⟨e, -, hc⟩ := exec_fault_of_no_memOperand hm h
  exact nomatch hc.symm.trans hnone

/-- What an instruction writes does not depend on the privilege level. -/
theorem resultOf_with_cpl (i : Instr) (s : State) (c : BitVec 2) (y : Vec) :
    resultOf i { s with cpl := c } y = resultOf i s y := by
  cases i <;> rfl

/-- An exception is the same fault at every privilege level. -/
theorem raiseException_with_cpl (e : ExcKind) (s : State) (c : BitVec 2) :
    raiseException e { s with cpl := c } = raiseException e s := rfl

/-- Settles O31: neither the availability check nor a register asks for the privilege level. -/
theorem registerFormsIgnorePrivilegeLevel : Obligations.RegisterFormsIgnorePrivilegeLevel := by
  intro s t i c hm
  refine ⟨fun h => ?_, fun f h => ?_⟩
  · obtain ⟨r, hsrc⟩ := source2_of_no_memOperand hm
    obtain ⟨hr, hn, y, hy, rfl⟩ := exec_next h
    obtain rfl : lowLanes i.form.kl (readV s r) = y := Read.value.inj ((hsrc s).symm.trans hy)
    have hr' : Ready i.form { s with cpl := c } := hr
    have hn' : NextFits i.length { s with cpl := c } := hn
    rw [exec_of_value hr' hn' (hsrc _), resultOf_with_cpl]
    rfl
  · obtain ⟨e, he, hc⟩ := exec_fault_of_no_memOperand hm h
    have hc' : checkAvailable i.form { s with cpl := c } = some e := hc
    rw [exec_of_checkAvailable hc', raiseException_with_cpl, he]

end Sys2Proof.Machine
end

section
/-! PROOFS. What every step keeps, every run keeps, and so the invariant (R4, R10, R133); and the launch's byte write: reading
back what was written, the bytes at other addresses, the canonical form (R21, R132). -/

namespace Sys2Proof.Machine

/-! ### What a run keeps (R4, R10, R133) -/

/-- What every step keeps, a run of any length keeps. -/
theorem runsTo_keeps {P : State → Prop} (hstep : ∀ s t : State, P s → step s = .next t → P t) {n : Nat} {s t : State}
    (hs : P s) (h : RunsTo n s t) : P t := by
  induction n generalizing s with
  | zero =>
    cases h
    exact hs
  | succ n ih =>
    obtain ⟨u, hsu, hut⟩ := runsTo_succ_iff.1 h
    exact ih (hstep s u hs hsu) hut

/-- Settles O55: every step keeps the invariant (O54), so every run does. -/
theorem runKeepsInvariant : Obligations.RunKeepsInvariant :=
  fun _ _ _ hs h => runsTo_keeps stepKeepsInvariant hs h

/-! ### Reading after the launch's byte write (R21, R132) -/

section Write
variable {m : Memory} {lo a : Nat} {b : Byte}

/-- The canonical form of a listed byte and what follows it, part by part. -/
theorem wfFrom_cons_iff : Memory.wfFrom lo ((a, b) :: m) = true ↔
    lo ≤ a ∧ b ≠ unlistedByte ∧ Memory.wfFrom (a + 1) m = true := by
  simp [Memory.wfFrom, and_assoc]

/-- A byte below all listed addresses reads back, although the canonical form leaves it out where it is `unlistedByte`. -/
theorem readByte_listed_first (h : Memory.wfFrom (a + 1) m = true) (b : Byte) (x : Nat) :
    readByte (if b = unlistedByte then m else (a, b) :: m) x = if x = a then b else readByte m x := by
  by_cases hb : b = unlistedByte
  · rw [if_pos hb, hb]
    split
    case isTrue hx => exact readByte_of_lt m (a + 1) x h (by omega)
    case isFalse => rfl
  · rw [if_neg hb]
    simp only [readByte, eq_comm]

/-- After a write each address reads as it did before, save the one that was written. -/
theorem readByte_writeByte (h : Memory.wfFrom lo m = true) (a : Nat) (b : Byte) (x : Nat) :
    readByte (writeByte m a b) x = if x = a then b else readByte m x := by
  induction m generalizing lo with
  | nil => exact readByte_listed_first rfl b x
  | cons c t ih =>
    obtain ⟨a', b'⟩ := c
    obtain ⟨-, hb', ht⟩ := wfFrom_cons_iff.1 h
    rw [writeByte]
    split
    case isTrue hlt => exact readByte_listed_first (wfFrom_cons_iff.2 ⟨hlt, hb', ht⟩) b x
    case isFalse hle =>
      split
      case isTrue heq =>
        subst heq
        rw [readByte_listed_first ht]
        split
        case isTrue => rfl
        case isFalse hx => rw [readByte, if_neg (Ne.symm hx)]
      case isFalse hne =>
        simp only [readByte, ih ht]
        split
        case isTrue hx => rw [if_neg (by omega)]
        case isFalse => rfl

end Write

/-- Settles O60: reading after the write by `readByte_writeByte`, the canonical form by `wf_writeByte`. -/
theorem memoryWriteThenRead : Obligations.MemoryWriteThenRead := by
  intro m a b h
  refine ⟨?_, fun a' hne => ?_, wf_writeByte m a b h⟩
  · rw [readByte_writeByte h, if_pos rfl]
  · rw [readByte_writeByte h, if_neg hne]

end Sys2Proof.Machine
end
